-- ==== Sys2Proof/Word.lean ====
section
/-! DEFINITION. The bit-vector types of the block: a byte, a Coded Word (spec/00_scope.md R5), a command word
(spec/30_encoding.md R66) and a response word (R70). -/

namespace Sys2Proof

/-- A byte of a coded block or of the Decoded Byte Stream. -/
abbrev Byte := BitVec 8

/-- A Coded Word: position `i` is the bit of weight `2^i` (R5). -/
abbrev Word := BitVec 32

/-- A command word: `op` in bits 39..32, `imm` in bits 31..0 (R66). -/
abbrev Cmd := BitVec 40

/-- A response word: `rflt` in bit 32, `rdata` in bits 31..0 (R70). -/
abbrev Rsp := BitVec 33

end Sys2Proof
end

