-- ==== Sys2Proof/Syntax.lean ====
section
/-! DEFINITION. The nine commands of the block (spec/30_encoding.md R67), one constructor per row of
spec/opcode_table.json. An operand has exactly the width R68 gives it, so no operand out of range can be written. -/

namespace Sys2Proof

/-- A command with its operand (R67, R68). -/
inductive Instr where
  /-- `NOP` (R141). -/
  | nop
  /-- `TRST`, transfer reset (R142). -/
  | trst
  /-- `BCLR`, discard the block being loaded (R143). -/
  | bclr
  /-- `BPUSH byte`, append one byte of the coded block; `byte = imm[7:0]` (R144). -/
  | bpush (byte : Byte)
  /-- `PBLK`, process the loaded block (R145). -/
  | pblk
  /-- `DECW word`, decode one word; `word = imm[31:0]` (R146). -/
  | decw (word : Word)
  /-- `RDST`, read the status word (R147). -/
  | rdst
  /-- `RDLN`, read the length word (R148). -/
  | rdln
  /-- `RDOB idx`, read one Decoded Byte; `idx = imm[8:0]` (R149). -/
  | rdob (idx : BitVec 9)
  deriving DecidableEq, Repr

end Sys2Proof
end

