-- ==== Sys2Proof/WellFormed.lean ====
section
/-! DEFINITION. Which command words are well formed (spec/30_encoding.md R68, R69), said on the two fields of the format
(R66). This is the check on raw commands, written apart from the decoder; that the decoder accepts exactly the commands
that pass it is a statement. A term of `Instr` needs no check of its own: each operand has the width R68 gives it, and R68
calls every value of those widths well formed (an index 416..511 included). -/

namespace Sys2Proof

/-- The two fields of a command word (R66). -/
structure Command where
  op  : BitVec 8
  imm : BitVec 32
  deriving DecidableEq, Repr

/-- The number of low bits of `imm` that the command with this opcode uses as its operand; `none` for a reserved opcode
(R67, R68). -/
def Command.operandWidth (op : BitVec 8) : Option Nat :=
  match op.toNat with
  | 0x00 => some 0
  | 0x01 => some 0
  | 0x02 => some 0
  | 0x03 => some 8
  | 0x04 => some 0
  | 0x05 => some 32
  | 0x06 => some 0
  | 0x07 => some 0
  | 0x08 => some 9
  | _ => none

/-- A command is well formed when its opcode is not reserved and every bit of `imm` above its operand is 0 (R68, R69). -/
def Command.wellFormed (c : Command) : Bool :=
  match Command.operandWidth c.op with
  | some n => decide (c.imm.toNat < 2 ^ n)
  | none => false

end Sys2Proof
end

