-- ==== Sys2Proof/Decode.lean ====
section
/-! DEFINITION. The decoder of command words, total on all 2^40 of them and refusing by name (spec/30_encoding.md R66 to R69,
R75, R78), the encoder written from the same table, and the opcode table itself as data. -/

namespace Sys2Proof

/-- Why a command word is illegal (R69). Either one raises `ILLEGAL_CMD`. -/
inductive DecodeError where
  /-- `op` is in `0x09..0xFF`. -/
  | reservedOpcode
  /-- A must-be-zero bit of `imm` is 1. -/
  | mustBeZero
  deriving DecidableEq, Repr

/-- `cmd[39:32]` (R66). -/
def cmdOp (w : Cmd) : BitVec 8 := w.extractLsb' 32 8

/-- `cmd[31:0]` (R66). -/
def cmdImm (w : Cmd) : BitVec 32 := w.extractLsb' 0 32

/-- The two fields of a command word as a record (R66). -/
def commandOf (w : Cmd) : Command := { op := cmdOp w, imm := cmdImm w }

/-- A command without operand: all of `imm` must be 0 (R68). -/
def decodePlain (imm : BitVec 32) (i : Instr) : Except DecodeError Instr :=
  if imm = 0 then .ok i else .error .mustBeZero

/-- `BPUSH`: `byte = imm[7:0]`, `imm[31:8]` must be 0 (R68). -/
def decodeBpush (imm : BitVec 32) : Except DecodeError Instr :=
  if imm.extractLsb' 8 24 = 0 then .ok (.bpush (imm.extractLsb' 0 8)) else .error .mustBeZero

/-- `RDOB`: `idx = imm[8:0]`, `imm[31:9]` must be 0 (R68). -/
def decodeRdob (imm : BitVec 32) : Except DecodeError Instr :=
  if imm.extractLsb' 9 23 = 0 then .ok (.rdob (imm.extractLsb' 0 9)) else .error .mustBeZero

/-- The decoder: first `op`, then the must-be-zero bits (R67, R68, R75). -/
def decode (w : Cmd) : Except DecodeError Instr :=
  match (cmdOp w).toNat with
  | 0x00 => decodePlain (cmdImm w) .nop
  | 0x01 => decodePlain (cmdImm w) .trst
  | 0x02 => decodePlain (cmdImm w) .bclr
  | 0x03 => decodeBpush (cmdImm w)
  | 0x04 => decodePlain (cmdImm w) .pblk
  | 0x05 => .ok (.decw (cmdImm w))
  | 0x06 => decodePlain (cmdImm w) .rdst
  | 0x07 => decodePlain (cmdImm w) .rdln
  | 0x08 => decodeRdob (cmdImm w)
  | _ => .error .reservedOpcode

/-- `{op, imm}` (R66). -/
def cmdWord (op : BitVec 8) (imm : BitVec 32) : Cmd := op ++ imm

/-- The encoder: `op` from the opcode map (R67), the operand zero-extended into `imm` (R68). -/
def encode : Instr → Cmd
  | .nop => cmdWord 0x00 0
  | .trst => cmdWord 0x01 0
  | .bclr => cmdWord 0x02 0
  | .bpush byte => cmdWord 0x03 (byte.setWidth 32)
  | .pblk => cmdWord 0x04 0
  | .decw word => cmdWord 0x05 word
  | .rdst => cmdWord 0x06 0
  | .rdln => cmdWord 0x07 0
  | .rdob idx => cmdWord 0x08 (idx.setWidth 32)

/-- A row of spec/opcode_table.json: a word is the row's command when `word & mask = value` (R75). -/
structure OpcodeRow where
  mnemonic : String
  value    : Cmd
  mask     : Cmd
  deriving DecidableEq, Repr

/-- The nine rows of spec/opcode_table.json. -/
def opcodeTable : List OpcodeRow :=
  [ { mnemonic := "NOP",   value := 0x0000000000, mask := 0xFFFFFFFFFF },
    { mnemonic := "TRST",  value := 0x0100000000, mask := 0xFFFFFFFFFF },
    { mnemonic := "BCLR",  value := 0x0200000000, mask := 0xFFFFFFFFFF },
    { mnemonic := "BPUSH", value := 0x0300000000, mask := 0xFFFFFFFF00 },
    { mnemonic := "PBLK",  value := 0x0400000000, mask := 0xFFFFFFFFFF },
    { mnemonic := "DECW",  value := 0x0500000000, mask := 0xFF00000000 },
    { mnemonic := "RDST",  value := 0x0600000000, mask := 0xFFFFFFFFFF },
    { mnemonic := "RDLN",  value := 0x0700000000, mask := 0xFFFFFFFFFF },
    { mnemonic := "RDOB",  value := 0x0800000000, mask := 0xFFFFFFFE00 } ]

/-- The command word `w` is the row's command (R75). -/
def OpcodeRow.admits (r : OpcodeRow) (w : Cmd) : Bool := w &&& r.mask == r.value

/-- The mnemonic of a command (R67). -/
def mnemonicOf : Instr → String
  | .nop => "NOP"
  | .trst => "TRST"
  | .bclr => "BCLR"
  | .bpush _ => "BPUSH"
  | .pblk => "PBLK"
  | .decw _ => "DECW"
  | .rdst => "RDST"
  | .rdln => "RDLN"
  | .rdob _ => "RDOB"

/-- The command word of an opcode-table number: the command is one word of 40 bits (R66), so the table's bit 0 is bit 0 of
the command word; bits above `nbits` are 0. DESIGN CHOICE (log entry 9). -/
def tableWord (nbits w : Nat) : Cmd := BitVec.ofNat 40 (w % 2 ^ nbits)

/-- The command the decoder reads from an opcode-table number, `none` where it refuses. -/
def decodeTableWord (nbits w : Nat) : Option Instr :=
  match decode (tableWord nbits w) with
  | .ok i => some i
  | .error _ => none

end Sys2Proof
end

