-- ==== Sys2Proof/Machine/Bits.lean ====
section
/-! DEFINITION. Bit sequences and the number primitives of spec/00_scope.md R6 and R7. A bit sequence is a `List Bool`, the
first bit in arrival order first. -/

namespace Sys2Proof.Machine

/-- The integer form of a bit sequence: the first bit is the most significant (R6). -/
def natOfBits (s : List Bool) : Nat := s.foldl (fun n b => 2 * n + b.toNat) 0

/-- The `n`-bit sequence whose integer form is `v mod 2^n` (R6). -/
def bitsOfNat (v : Nat) : Nat → List Bool
  | 0 => []
  | n + 1 => v.testBit n :: bitsOfNat v n

/-- A byte from 8 bits in arrival order: the first is bit 7 (spec/20_memory.md R42). -/
def byteOfBits (s : List Bool) : Byte := BitVec.ofNat 8 (natOfBits s)

/-- The number of bits of `v` at positions below `n` that are 1. -/
def popcountBelow (v : Word) : Nat → Nat
  | 0 => 0
  | n + 1 => popcountBelow v n + (v.getLsbD n).toNat

/-- The number of bits of a word that are 1 (R7). -/
def popcount (v : Word) : Nat := popcountBelow v 32

/-- True when `n mod 2 = 0` (R7). -/
def even (n : Nat) : Bool := n % 2 == 0

end Sys2Proof.Machine
end

