-- ==== Sys2Proof/Config.lean ====
section
/-! DEFINITION. The parameters of the block (spec/00_scope.md R4). The block leaves no parameter open and no value to a
draw (R4, R11), so there is no free value here. -/

namespace Sys2Proof.Config

/-- `N`: bits in a Coded Word. -/
abbrev wordBits : Nat := 32
/-- `K`: payload bits per Coded Word. -/
abbrev payloadBits : Nat := 26
/-- `R`: check bits per Coded Word. -/
abbrev checkBits : Nat := 6
/-- `SYNW`: bits of the candidate error position. -/
abbrev syndromeBits : Nat := 5
/-- `LOMAX`: the largest number of Leftover Bits. -/
abbrev maxLeftover : Nat := 7
/-- `WORDBYTES`: bytes per Coded Word in a block. -/
abbrev wordBytes : Nat := 4
/-- `MAXBLK`: the largest coded block in bytes, the size of `IBUF`. -/
abbrev maxBlock : Nat := 512
/-- `MAXWORDS`: the largest coded block in words. -/
abbrev maxWords : Nat := 128
/-- `MAXOUT`: the largest number of Decoded Bytes per block, the size of `OBUF`. -/
abbrev maxOut : Nat := 416
/-- `CMDW`: command word width. -/
abbrev cmdBits : Nat := 40
/-- `RSPW`: response word width. -/
abbrev rspBits : Nat := 33

/-- `CHECKPOS`: the check bit positions. -/
abbrev checkPositions : List Nat := [0, 1, 3, 7, 15, 31]

end Sys2Proof.Config
end

