-- ==== Sys2Proof/Machine/State.lean ====
section
/-! DEFINITION. The state of the block (spec/10_state.md R20), the command port the model adds to it, the reasons the model
can stop, and the state after reset (R31, spec/70_reset_and_hazards.md R230). -/

namespace Sys2Proof.Machine

/-- One of the block's byte buffers (spec/20_memory.md R40) as a list of index and byte, indices strictly rising, no byte
listed that an unlisted index reads as. -/
abbrev Memory := List Host.Cell

/-- What reaches the block from outside between two commands. -/
inductive Input where
  /-- The host issues a 40-bit command word (spec/42_commands.md R140). -/
  | command (w : Cmd)
  /-- The platform asserts the hardware reset (spec/70_reset_and_hazards.md R230). -/
  | hardwareReset
  deriving DecidableEq, Repr

/-- The eight fields of R20, and the command port. -/
structure State where
  /-- `LO_CNT`: the number of Leftover Bits (R22). -/
  loCnt  : BitVec 3
  /-- `LO_REG`: the Leftover Bits, right-aligned, the oldest highest (R22). -/
  loReg  : BitVec 7
  /-- `IBUF`: the coded block being loaded (R24). -/
  ibuf   : Memory
  /-- `ILEN`: the number of valid bytes in `IBUF` (R24). -/
  ilen   : BitVec 10
  /-- `OBUF`: the Decoded Bytes of the last successful block (R25). -/
  obuf   : Memory
  /-- `OLEN`: the number of valid bytes in `OBUF` (R25). -/
  olen   : BitVec 9
  /-- `UNC`: the last completed `PBLK` returned Uncorrectable (R26). -/
  unc    : Bool
  /-- `FCODE`: the code of the first interface fault since reset, 0 for none (R27). -/
  fcode  : BitVec 3
  /-- The model's own (log entry 1): what the host and the platform have still to issue, the next one first. -/
  inputs : List Input
  /-- The model's own (log entry 3): the responses given so far, the oldest first. -/
  rsps   : List Rsp
  deriving DecidableEq, Repr

/-- The reasons the model stops. No command stops in a state that keeps the invariant R32: the four interface faults of
spec/60_exceptions.md R203 are next states, not these. -/
inductive Fault where
  /-- Raised by `BPUSH` and `RDOB` when they would reach a buffer index that R40 does not give the buffer; only in a state
  with `ILEN > 512` or `OLEN > 416`, which R32 rules out. Safe (log entry 8). -/
  | outsideBuffer
  /-- Raised by `PBLK` when `process_block` is not defined for the loaded block (spec/41_reassembler.md R123); after the
  length check only in a state with `ILEN > 512`, which R32 rules out. Safe (log entry 8). -/
  | blockNotDefined
  deriving DecidableEq, Repr

/-- The reasons the model gives an instruction no meaning. -/
inductive Refusal where
  /-- Raised by an arm of `exec` for an instruction that has no meaning yet; no arm does. Safe. -/
  | notModelled (mnemonic : String)
  deriving DecidableEq, Repr

/-- The state right after a hardware reset (R31, R230): every register 0, both buffers with nothing listed, no command
issued yet and no response given yet. -/
def State.reset : State :=
  { loCnt := 0, loReg := 0, ibuf := [], ilen := 0, obuf := [], olen := 0, unc := false, fcode := 0,
    inputs := [], rsps := [] }

end Sys2Proof.Machine
end

