-- ==== Sys2Proof/Machine/Flags.lean ====
section
/-! DEFINITION. The two flags, `UNC` and `FCODE` (spec/10_state.md R26, R27), the fault codes (spec/60_exceptions.md R203) and
the status word that shows them (spec/30_encoding.md R72). -/

namespace Sys2Proof.Machine

/-- The four interface faults (R203). -/
inductive InterfaceFault where
  /-- A reserved opcode, or a must-be-zero bit that is 1. -/
  | illegalCmd
  /-- `PBLK` with `ILEN mod 4 != 0`. -/
  | badLength
  /-- `BPUSH` with `ILEN = 512`. -/
  | ibufOverflow
  /-- `RDOB idx` with `idx >= OLEN`. -/
  | badIndex
  deriving DecidableEq, Repr

/-- The 3-bit code of an interface fault (R74, R203). -/
def InterfaceFault.code : InterfaceFault → BitVec 3
  | .illegalCmd => 1
  | .badLength => 2
  | .ibufOverflow => 3
  | .badIndex => 4

/-- The new `FCODE` when a fault with this code is raised: the first fault since reset wins (R27, R205). -/
def recordFault (old code : BitVec 3) : BitVec 3 := if old = 0 then code else old

/-- The status word, `(UNC << 31) | (FCODE << 28) | (LO_CNT << 8) | LO_REG` (R72). -/
def statusWord (unc : Bool) (fcode : BitVec 3) (loCnt : BitVec 3) (loReg : BitVec 7) : BitVec 32 :=
  ((BitVec.ofBool unc).setWidth 32 <<< 31) ||| (fcode.setWidth 32 <<< 28) ||| (loCnt.setWidth 32 <<< 8) |||
    loReg.setWidth 32

end Sys2Proof.Machine
end

