-- ==== Sys2Proof/Machine/Operands.lean ====
section
/-! DEFINITION. The operand and result forms of the commands: response words (spec/30_encoding.md R70, R71), the length word
(R73), and how an operand becomes an index or a `rdata` (R68: no operand is signed, scaled, shifted or split; everything is
zero-extended). -/

namespace Sys2Proof.Machine

/-- The response of a command that did not fault: `rflt = 0`, `rdata = v` (R70). -/
def okRsp (v : BitVec 32) : Rsp := (0#1) ++ v

/-- The response of a command that raised a fault: `rflt = 1`, `rdata = zext_32(code)` (R70). -/
def faultRsp (code : BitVec 3) : Rsp := (1#1) ++ code.setWidth 32

/-- `rsp[32]` (R70). -/
def rflt (r : Rsp) : Bool := r.getLsbD 32

/-- `rsp[31:0]` (R70). -/
def rdata (r : Rsp) : BitVec 32 := r.extractLsb' 0 32

/-- `rdata` of `DECW` and `PBLK` when the outcome is Uncorrectable (R71). -/
def uncorrectableData : BitVec 32 := 0x80000000

/-- `zext_32` of a byte (R71: `RDOB`). -/
def byteData (b : Byte) : BitVec 32 := b.setWidth 32

/-- The `idx` operand of `RDOB` as a buffer index: absolute, no base, no scaling (R68, spec/42_commands.md R153). -/
def indexOf (idx : BitVec 9) : Nat := idx.toNat

/-- The length word, `(ILEN << 16) | OLEN` (R73). -/
def lengthWord (ilen : BitVec 10) (olen : BitVec 9) : BitVec 32 :=
  (ilen.setWidth 32 <<< 16) ||| olen.setWidth 32

end Sys2Proof.Machine
end

