-- ==== Sys2Proof/Machine/Ops.lean ====
section
/-! DEFINITION. The named operations over buffers and registers: reading and writing a buffer (spec/20_memory.md R40,
spec/00_scope.md R7), the Leftover Bits as a sequence (spec/10_state.md R22), responding, raising an interface fault
(spec/60_exceptions.md R204), the hardware reset (spec/70_reset_and_hazards.md R230) and taking the next input. -/

namespace Sys2Proof.Machine

/-- How a command ends. -/
abbrev Result := Host.Outcome State Fault Refusal

/-! ### Buffers -/

/-- What a buffer index that nothing has written reads as. DESIGN CHOICE (log entry 5): R31 leaves it open and no command can
return it. -/
def unwritten : Byte := 0

/-- The byte at an index of a buffer (R40). -/
def Memory.read : Memory → Nat → Byte
  | [], _ => unwritten
  | (a, b) :: m, i => if i = a then b else Memory.read m i

/-- Write one byte at an index of a buffer, keeping the canonical form. -/
def Memory.write : Memory → Nat → Byte → Memory
  | [], i, v => if v = unwritten then [] else [(i, v)]
  | (a, b) :: m, i, v =>
    if i < a then (if v = unwritten then (a, b) :: m else (i, v) :: (a, b) :: m)
    else if i = a then (if v = unwritten then m else (i, v) :: m)
    else (a, b) :: Memory.write m i v

/-- `MemRead(buf, a, n)`: the `n` bytes from index `a` (R7). -/
def Memory.readBytes (m : Memory) (a n : Nat) : List Byte := (List.range n).map (fun j => m.read (a + j))

/-- `MemWrite(buf, a, n, v)`: the bytes `v` from index `a` (R7). -/
def Memory.writeBytes (m : Memory) (a : Nat) : List Byte → Memory
  | [] => m
  | b :: bs => Memory.writeBytes (m.write a b) (a + 1) bs

/-- Every index listed from here on is at least `lo`, indices strictly rise, and no listed byte is what an unlisted index
reads as. -/
def Memory.canonicalFrom : Nat → Memory → Bool
  | _, [] => true
  | lo, (a, b) :: m => decide (lo ≤ a) && (b != unwritten) && Memory.canonicalFrom (a + 1) m

/-- The canonical form of a buffer: equal buffers are equal lists. -/
def Memory.wf (m : Memory) : Bool := Memory.canonicalFrom 0 m

/-- Every listed index is below the buffer's size (R40). -/
def Memory.within (m : Memory) (size : Nat) : Bool := m.all (fun c => decide (c.1 < size))

/-! ### The Leftover Bits -/

/-- The Leftover Bits as a sequence, `lo[i] = LO_REG[LO_CNT - 1 - i]`, the oldest bit first (R22). -/
def State.lo (s : State) : List Bool := bitsOfNat s.loReg.toNat s.loCnt.toNat

/-- Store Leftover Bits in register form: `LO_CNT = |lo|`, `LO_REG` the integer form, upper bits 0 (R22). -/
def State.setLo (s : State) (lo : List Bool) : State :=
  { s with loCnt := BitVec.ofNat 3 lo.length, loReg := BitVec.ofNat 7 (natOfBits lo) }

/-! ### Ending a command -/

/-- Hand a response to the host (R70, R140). -/
def State.answer (s : State) (r : Rsp) : State := { s with rsps := s.rsps ++ [r] }

/-- `respond(v)` (R7, R140): the command ends with `rflt = 0`, `rdata = v`. -/
def respond (v : BitVec 32) (s : State) : Result := .next (s.answer (okRsp v))

/-- The state after an interface fault (R204): nothing is written but `FCODE`, and that only if no fault is recorded; the
response is `rflt = 1` with the fault's code. -/
def State.afterFault (s : State) (f : InterfaceFault) : State :=
  State.answer { s with fcode := recordFault s.fcode f.code } (faultRsp f.code)

/-- `raise Fault(code)` (R140, R204). Nothing is saved and control goes nowhere, so there is no return from it
(R208, R210). -/
def raiseFault (f : InterfaceFault) (s : State) : Result := .next (s.afterFault f)

/-! ### What comes from outside -/

/-- The hardware reset (R31, R230): every field of the block as in the reset state. The command port is not the block's: what
is still to be issued and what was answered stay. DESIGN CHOICE for the buffers, which R31 leaves unspecified (log entry 6). -/
def hardwareReset (s : State) : State := { State.reset with inputs := s.inputs, rsps := s.rsps }

/-- What the next input is, with the state once it is taken from the port. -/
inductive Taken where
  /-- Nothing is issued: the block waits (spec/60_exceptions.md R216). -/
  | idle
  /-- A command word, and the state in which it is performed. -/
  | command (w : Cmd) (s : State)
  /-- The hardware reset, and the state in which it happens. -/
  | hardwareReset (s : State)
  deriving DecidableEq, Repr

/-- Take the next input from the port. DESIGN CHOICE (log entry 1). -/
def takeInput (s : State) : Taken :=
  match s.inputs with
  | [] => .idle
  | .command w :: rest => .command w { s with inputs := rest }
  | .hardwareReset :: rest => .hardwareReset { s with inputs := rest }

/-- An illegal command word raises `ILLEGAL_CMD` and nothing else is looked at (spec/30_encoding.md R69,
spec/60_exceptions.md R207). -/
def illegalCommand (s : State) : Result := raiseFault .illegalCmd s

/-- Issue a command word before whatever is already to be issued. -/
def State.issue (s : State) (w : Cmd) : State := { s with inputs := .command w :: s.inputs }

end Sys2Proof.Machine
end

