-- ==== Sys2Proof/Machine/Buffer.lean ====
section
/-! DEFINITION. The commands that move data between the host and the buffers (spec/42_commands.md R153): `BCLR`, `BPUSH`, `RDOB`
(R143, R144, R149). -/

namespace Sys2Proof.Machine

/-- `BCLR`: `ILEN <- 0` (R143). -/
def execBclr (s : State) : Result := respond 0 { s with ilen := 0 }

/-- `BPUSH byte`: `IBUF_OVERFLOW` when `ILEN = 512`; else the byte goes to `IBUF[ILEN]` and `ILEN` grows by 1 (R144, R55). In a
state with `ILEN > 512`, which R32 rules out, index `ILEN` does not exist (R40): the model stops (log entry 8). -/
def execBpush (byte : Byte) (s : State) : Result :=
  if s.ilen.toNat = Config.maxBlock then raiseFault .ibufOverflow s
  else if s.ilen.toNat < Config.maxBlock then
    respond 0 { s with ibuf := s.ibuf.write s.ilen.toNat byte, ilen := s.ilen + 1 }
  else .fault .outsideBuffer

/-- `RDOB idx`: `BAD_INDEX` when `idx >= OLEN`; else respond with `OBUF[idx]`, zero-extended (R149). In a state with
`OLEN > 416`, which R32 rules out, an index from 416 on does not exist (R40): the model stops (log entry 8). -/
def execRdob (idx : BitVec 9) (s : State) : Result :=
  if s.olen.toNat ≤ indexOf idx then raiseFault .badIndex s
  else if indexOf idx < Config.maxOut then respond (byteData (s.obuf.read (indexOf idx))) s
  else .fault .outsideBuffer

end Sys2Proof.Machine
end

