-- ==== Sys2Proof/Machine/Codec.lean ====
section
/-! DEFINITION. The codec: PARITY, SYNDROME, CORRECT, VERIFY, EXTRACT and their composition `decode_word`
(spec/40_codec.md R100 to R105), over the parity-check matrix and the payload order of spec/30_encoding.md R62 to R65. -/

namespace Sys2Proof.Machine

/-- `M_k`, the coverage set `S_k` as a mask: bit `p` is 1 when position `p` is in the set (R62). -/
def parityMask : Nat → Word
  | 0 => 0x55555555
  | 1 => 0x66666666
  | 2 => 0x78787878
  | 3 => 0x7F807F80
  | 4 => 0x7FFF8000
  | _ => 0xFFFFFFFF

/-- Position `p` is in the coverage set `S_k` (R62): `S_k` for `k <= 4` is the positions whose `p + 1` has bit `k` set, `S_5` is
every position. The masks say the same. -/
def inCoverage (k p : Nat) : Bool := k == 5 || (p + 1).testBit k

/-- The Parity Vector: `pk` is true when coverage set `S_k` holds an even number of ones (R100). -/
structure ParityVector where
  p0 : Bool
  p1 : Bool
  p2 : Bool
  p3 : Bool
  p4 : Bool
  p5 : Bool
  deriving DecidableEq, Repr

/-- `pv[k]`. -/
def ParityVector.get (pv : ParityVector) : Nat → Bool
  | 0 => pv.p0
  | 1 => pv.p1
  | 2 => pv.p2
  | 3 => pv.p3
  | 4 => pv.p4
  | _ => pv.p5

/-- One entry of the Parity Vector: `even(popcount(w & M_k))` (R100). -/
def parityBit (w : Word) (k : Nat) : Bool := even (popcount (w &&& parityMask k))

/-- PARITY (R100). -/
def parity (w : Word) : ParityVector :=
  { p0 := parityBit w 0, p1 := parityBit w 1, p2 := parityBit w 2,
    p3 := parityBit w 3, p4 := parityBit w 4, p5 := parityBit w 5 }

/-- `2^k` for a discrepancy in check `k`, else 0 (R101). -/
def discrepancy (ok : Bool) (weight : BitVec 5) : BitVec 5 := if ok then 0 else weight

/-- SYNDROME, the candidate error position; `pv[5]` takes no part in it (R101). -/
def syndrome (pv : ParityVector) : BitVec 5 :=
  discrepancy pv.p0 1 + discrepancy pv.p1 2 + discrepancy pv.p2 4 + discrepancy pv.p3 8 + discrepancy pv.p4 16

/-- CORRECT: flip position `e - 1` when `e` is not 0 (R102). -/
def correct (w : Word) (e : BitVec 5) : Word :=
  if e = 0 then w else w ^^^ (1#32 <<< (e.toNat - 1))

/-- VERIFY, on the corrected word: it fails on odd overall parity OR a residual discrepancy (R103). -/
def verify (w' : Word) : Bool :=
  if (parity w').p5 = false ∨ syndrome (parity w') ≠ 0 then false else true

/-- `DATAPOS`, the payload positions in ascending order (R61, spec/00_scope.md R4). -/
def dataPositions : List Nat :=
  [2, 4, 5, 6, 8, 9, 10, 11, 12, 13, 14, 16, 17, 18, 19, 20, 21, 22, 23, 24, 25, 26, 27, 28, 29, 30]

/-- EXTRACT: the bits at the payload positions in ascending order, then reversed: position 30 first, position 2 last
(R64, R104). -/
def extract (w' : Word) : List Bool := (dataPositions.map w'.getLsbD).reverse

/-- The payload as a number, `{ W[30:16], W[14:8], W[6:4], W[2] }` (R65). -/
def payload (w' : Word) : BitVec 26 :=
  w'.extractLsb' 16 15 ++ w'.extractLsb' 8 7 ++ w'.extractLsb' 4 3 ++ w'.extractLsb' 2 1

/-- The corrected word of a received word (R101, R102): the flip is decided on the received word alone. -/
def corrected (w : Word) : Word := correct w (syndrome (parity w))

/-- `decode_word`: the 26 Payload Bits of the corrected word, or `none` for Uncorrectable (R105). -/
def decodeWord (w : Word) : Option (List Bool) :=
  if verify (corrected w) then some (extract (corrected w)) else none

/-- The positions of a word that hold a 1, ascending. -/
def onesOf (w : Word) : List Nat := (List.range 32).filter w.getLsbD

/-- A valid codeword: all six parities are true (R107). -/
def validCodeword (c : Word) : Bool :=
  parity c == { p0 := true, p1 := true, p2 := true, p3 := true, p4 := true, p5 := true }

end Sys2Proof.Machine
end

