-- ==== Sys2Proof/Machine/Reassembler.lean ====
section
/-! DEFINITION. The block reassembler: `append_word` and `process_block` (spec/41_reassembler.md R120 to R125), and
`append_word` in integer form (R121). -/

namespace Sys2Proof.Machine

/-- Cut a bit sequence into its complete 8-bit groups in arrival order, and the trailing bits: `nb = |t| div 8` bytes,
`bytes[j] = t[8j .. 8j+8)` (R120). -/
def cutBytes (t : List Bool) : List Byte × List Bool :=
  ((List.range (t.length / 8)).map (fun j => byteOfBits ((t.drop (8 * j)).take 8)), t.drop (8 * (t.length / 8)))

/-- `append_word`: the Leftover Bits go first, then the Payload Bits (R120). -/
def appendWord (lo s : List Bool) : List Byte × List Bool := cutBytes (lo ++ s)

/-- `append_word` on register forms: `c = LO_CNT`, `r = LO_REG`, `p` the payload; the bytes, `c'` and `r'` (R121). -/
def appendWordInt (c r p : Nat) : List Byte × Nat × Nat :=
  let acc := (r <<< 26) ||| p
  let n := c + 26
  ((List.range (n / 8)).map (fun j => BitVec.ofNat 8 (acc >>> (n - 8 * (j + 1)))), n % 8, acc % 2 ^ (n % 8))

/-- A Coded Word from its four bytes in arrival order, big-endian (spec/20_memory.md R41). -/
def wordOfBytes (b0 b1 b2 b3 : Byte) : Word := b0 ++ b1 ++ b2 ++ b3

/-- The Coded Words of a block, in arrival order (R123 step 1). Fewer than 4 trailing bytes make no word: `processBlock` is
not defined for such a block. -/
def wordsOfBytes : List Byte → List Word
  | b0 :: b1 :: b2 :: b3 :: rest => wordOfBytes b0 b1 b2 b3 :: wordsOfBytes rest
  | _ => []

/-- What `process_block` answers (R123). -/
inductive BlockResult where
  /-- All words decoded: the Decoded Bytes and the new Leftover Bits. -/
  | decoded (out : List Byte) (lo : List Bool)
  /-- Some word of the block is Uncorrectable: no bytes, the carry untouched (R124). -/
  | uncorrectable
  /-- The block breaks the function's precondition (its length is not a multiple of 4, or over 512): the function is not
  defined there (R123; spec/93_implementation_defined.md U1, U2). -/
  | notDefined
  deriving DecidableEq, Repr

/-- Put bytes in front of a block's Decoded Bytes. -/
def BlockResult.prepend (bytes : List Byte) : BlockResult → BlockResult
  | .decoded out lo => .decoded (bytes ++ out) lo
  | .uncorrectable => .uncorrectable
  | .notDefined => .notDefined

/-- The loop of `process_block` over the words, `lo` the working copy of the Leftover Bits; the first Uncorrectable word ends
it (R123, R124). -/
def processWords : List Word → List Bool → BlockResult
  | [], lo => .decoded [] lo
  | w :: ws, lo =>
    match decodeWord w with
    | none => .uncorrectable
    | some s => (processWords ws (appendWord lo s).2).prepend (appendWord lo s).1

/-- `process_block` (R123). -/
def processBlock (blk : List Byte) (lo : List Bool) : BlockResult :=
  if blk.length % 4 = 0 ∧ blk.length ≤ Config.maxBlock then processWords (wordsOfBytes blk) lo else .notDefined

end Sys2Proof.Machine
end

