-- ==== Sys2Proof/Machine/Decoder.lean ====
section
/-! DEFINITION. The commands that run the decoder: `PBLK` and `DECW` (spec/42_commands.md R145, R146). -/

namespace Sys2Proof.Machine

/-- The state `PBLK` leaves when the block decoded: the Decoded Bytes in `OBUF`, their number in `OLEN`, the new carry,
`UNC` 0, the block consumed (R145). -/
def State.commitBlock (s : State) (out : List Byte) (lo : List Bool) : State :=
  { s.setLo lo with
    obuf := s.obuf.writeBytes 0 out, olen := BitVec.ofNat 9 out.length, unc := false, ilen := 0 }

/-- The state `PBLK` leaves when the block is Uncorrectable: no bytes, `UNC` 1, the block consumed, the carry as it was
(R145, R124). -/
def State.rejectBlock (s : State) : State := { s with unc := true, olen := 0, ilen := 0 }

/-- `PBLK`: `BAD_LENGTH` when `ILEN mod 4 != 0`; else `process_block` on `IBUF[0..ILEN)` and the Leftover Bits, all or nothing
(R145, R45, R207). -/
def execPblk (s : State) : Result :=
  if s.ilen.toNat % 4 ≠ 0 then raiseFault .badLength s
  else
    match processBlock (s.ibuf.readBytes 0 s.ilen.toNat) s.lo with
    | .uncorrectable => respond uncorrectableData s.rejectBlock
    | .decoded out lo => respond (BitVec.ofNat 32 out.length) (s.commitBlock out lo)
    | .notDefined => .fault .blockNotDefined

/-- `rdata` of `DECW`: the payload in integer form, or `0x80000000` for Uncorrectable (R71, R146). -/
def decodeData (word : Word) : BitVec 32 :=
  match decodeWord word with
  | none => uncorrectableData
  | some d => BitVec.ofNat 32 (natOfBits d)

/-- `DECW word`: respond with `decode_word(word)`; no state is read or written (R146). -/
def execDecw (word : Word) (s : State) : Result := respond (decodeData word) s

end Sys2Proof.Machine
end

