-- ==== Sys2Proof/Machine/System.lean ====
section
/-! DEFINITION. The system commands (spec/42_commands.md R154): `NOP`, `TRST`, `RDST`, `RDLN` (R141, R142, R147, R148). -/

namespace Sys2Proof.Machine

/-- `NOP`: `respond(0)` (R141). -/
def execNop (s : State) : Result := respond 0 s

/-- `TRST`, the start of a new transfer: the carry, the lengths and `UNC` become 0; `FCODE` and the buffers' contents are not
written (R142, R231). -/
def execTrst (s : State) : Result :=
  respond 0 { s with loCnt := 0, loReg := 0, ilen := 0, olen := 0, unc := false }

/-- `RDST`: respond with the status word (R147, R72). -/
def execRdst (s : State) : Result := respond (statusWord s.unc s.fcode s.loCnt s.loReg) s

/-- `RDLN`: respond with the length word (R148, R73). -/
def execRdln (s : State) : Result := respond (lengthWord s.ilen s.olen) s

end Sys2Proof.Machine
end

