-- ==== Sys2Proof/Machine/Dispatch.lean ====
section
/-! DEFINITION. One arm per command (spec/42_commands.md R140: perform the rule of the command selected by `op`). -/

namespace Sys2Proof.Machine

def exec (i : Instr) (s : State) : Host.Outcome State Fault Refusal :=
  match i with
  | .nop => Sys2Proof.Machine.execNop s
  | .trst => Sys2Proof.Machine.execTrst s
  | .bclr => Sys2Proof.Machine.execBclr s
  | .bpush byte => Sys2Proof.Machine.execBpush byte s
  | .pblk => Sys2Proof.Machine.execPblk s
  | .decw word => Sys2Proof.Machine.execDecw word s
  | .rdst => Sys2Proof.Machine.execRdst s
  | .rdln => Sys2Proof.Machine.execRdln s
  | .rdob idx => Sys2Proof.Machine.execRdob idx s

end Sys2Proof.Machine
end

