-- ==== Sys2Proof/Machine/Perform.lean ====
section
/-! DEFINITION. Performing one command word (spec/42_commands.md R140). -/

namespace Sys2Proof.Machine

/-- Decode a command word, then perform the rule of its command; an illegal word raises `ILLEGAL_CMD` and nothing else is
looked at (R140, spec/60_exceptions.md R207). -/
def perform (w : Cmd) (s : State) : Result :=
  match decode w with
  | .ok i => exec i s
  | .error _ => illegalCommand s

end Sys2Proof.Machine
end

