-- ==== Sys2Proof/Machine/Step.lean ====
section
/-! DEFINITION. One step of the machine (spec/42_commands.md R140): the next input is taken from the port; a command word is
performed to completion, the hardware reset resets, and with nothing issued the block waits with all its state kept
(spec/60_exceptions.md R216). -/

namespace Sys2Proof.Machine

/-- One step. -/
def step (s : State) : Host.Outcome State Fault Refusal :=
  match takeInput s with
  | .idle => .next s
  | .command w t => perform w t
  | .hardwareReset t => .next (hardwareReset t)

/-- The state in which the host issues the command of this opcode-table number next. -/
def State.withFetchWord (s : State) (nbits w : Nat) : State := s.issue (tableWord nbits w)

end Sys2Proof.Machine
end

