-- ==== Sys2Proof/Machine/Assembler.lean ====
section
/-! DEFINITION. The assembler: the two pseudo-instructions with their exact expansions (spec/30_encoding.md R77) and the text
form of a command line and of an encoding (R76). What R76 leaves open about text is log entry 11. -/

namespace Sys2Proof.Machine

/-! ### Pseudo-instructions -/

/-- `WPUSH w`: the four bytes of a Coded Word, most significant first (R77). -/
def wpush (w : Word) : List Instr :=
  [.bpush (w.extractLsb' 24 8), .bpush (w.extractLsb' 16 8), .bpush (w.extractLsb' 8 8), .bpush (w.extractLsb' 0 8)]

/-- `BLOCK w0, ..., wn-1`: `BCLR`, then `WPUSH` of each word in order, then `PBLK` (R77). -/
def blockProgram (ws : List Word) : List Instr := .bclr :: ws.flatMap wpush ++ [.pblk]

/-! ### Numbers as text -/

/-- The hexadecimal digit of a value below 16, in upper case: ten digits count up from `0`, six letters from `A`. -/
def hexDigit (v : Nat) : Char := if v < 10 then Char.ofNat ('0'.toNat + v) else Char.ofNat ('A'.toNat + (v - 10))

/-- The value of a character in a run of `count` digits that starts at `first` with the value `base`. -/
def valueInRun (first : Char) (count base : Nat) (c : Char) : Option Nat :=
  if first.toNat ≤ c.toNat ∧ c.toNat < first.toNat + count then some (base + (c.toNat - first.toNat)) else none

/-- The value of a hexadecimal digit, in either case. -/
def digitValue (c : Char) : Option Nat :=
  (valueInRun '0' 10 0 c).or ((valueInRun 'A' 6 10 c).or (valueInRun 'a' 6 10 c))

/-- The `n` low hexadecimal digits of a number, most significant first. -/
def hexDigits (v : Nat) : Nat → List Char
  | 0 => []
  | n + 1 => hexDigit (v / 16 ^ n % 16) :: hexDigits v n

/-- A number with `0x` and `n` digits (R76). -/
def hexNumber (v n : Nat) : List Char := '0' :: 'x' :: hexDigits v n

/-- Read digits of a base after the digits already read. -/
def readDigits (base : Nat) : Nat → List Char → Option Nat
  | acc, [] => some acc
  | acc, c :: cs =>
    match digitValue c with
    | some d => if d < base then readDigits base (base * acc + d) cs else none
    | none => none

/-- A number: hexadecimal with prefix `0x`, or decimal (R76). -/
def readNumber : List Char → Option Nat
  | [] => none
  | ['0', 'x'] => none
  | '0' :: 'x' :: cs => readDigits 16 0 cs
  | cs => readDigits 10 0 cs

/-! ### Lines -/

/-- The 40-bit encoding as ten hexadecimal digits, `op` first, with `0x` (R76). -/
def showEncoding (i : Instr) : List Char := hexNumber (encode i).toNat 10

/-- A command as text: the mnemonic, then the operand in hexadecimal if the command has one (R76). -/
def showInstr : Instr → List Char
  | .nop => ['N', 'O', 'P']
  | .trst => ['T', 'R', 'S', 'T']
  | .bclr => ['B', 'C', 'L', 'R']
  | .bpush byte => ['B', 'P', 'U', 'S', 'H', ' '] ++ hexNumber byte.toNat 2
  | .pblk => ['P', 'B', 'L', 'K']
  | .decw word => ['D', 'E', 'C', 'W', ' '] ++ hexNumber word.toNat 8
  | .rdst => ['R', 'D', 'S', 'T']
  | .rdln => ['R', 'D', 'L', 'N']
  | .rdob idx => ['R', 'D', 'O', 'B', ' '] ++ hexNumber idx.toNat 3

/-- A blank between the parts of a line. -/
def isBlank (c : Char) : Bool := c == ' ' || c == '\t'

/-- A line without its comment (R76). -/
def stripComment (cs : List Char) : List Char := cs.takeWhile (fun c => c != ';')

/-- Without leading and trailing blanks. -/
def trimBlanks (cs : List Char) : List Char := ((cs.dropWhile isBlank).reverse.dropWhile isBlank).reverse

/-- Cut at commas; `part` is the reversed current part. -/
def splitCommas (part : List Char) : List Char → List (List Char)
  | [] => [part.reverse]
  | ',' :: cs => part.reverse :: splitCommas [] cs
  | c :: cs => splitCommas (c :: part) cs

/-- A number below `2^n`, as text. -/
def readOperand (n : Nat) (cs : List Char) : Option (BitVec n) :=
  match readNumber cs with
  | some v => if v < 2 ^ n then some (BitVec.ofNat n v) else none
  | none => none

/-- The words of `BLOCK`, none or more, between commas (R77). -/
def readWords (cs : List Char) : Option (List Word) :=
  if cs = [] then some [] else (splitCommas [] cs).mapM (fun part => readOperand 32 (trimBlanks part))

/-- A command without operand. -/
def plainLine (i : Instr) (operand : List Char) : Option (List Instr) := if operand = [] then some [i] else none

/-- The commands of a mnemonic with its operand text. -/
def readCommand (mnemonic operand : List Char) : Option (List Instr) :=
  if mnemonic = ['N', 'O', 'P'] then plainLine .nop operand
  else if mnemonic = ['T', 'R', 'S', 'T'] then plainLine .trst operand
  else if mnemonic = ['B', 'C', 'L', 'R'] then plainLine .bclr operand
  else if mnemonic = ['B', 'P', 'U', 'S', 'H'] then (readOperand 8 operand).map (fun b => [.bpush b])
  else if mnemonic = ['P', 'B', 'L', 'K'] then plainLine .pblk operand
  else if mnemonic = ['D', 'E', 'C', 'W'] then (readOperand 32 operand).map (fun w => [.decw w])
  else if mnemonic = ['R', 'D', 'S', 'T'] then plainLine .rdst operand
  else if mnemonic = ['R', 'D', 'L', 'N'] then plainLine .rdln operand
  else if mnemonic = ['R', 'D', 'O', 'B'] then (readOperand 9 operand).map (fun i => [.rdob i])
  else if mnemonic = ['W', 'P', 'U', 'S', 'H'] then (readOperand 32 operand).map wpush
  else if mnemonic = ['B', 'L', 'O', 'C', 'K'] then (readWords operand).map blockProgram
  else none

/-- One line of assembler text: the commands it stands for, none for a blank or comment line (R76, R77). -/
def assembleLine (line : List Char) : Option (List Instr) :=
  let cs := trimBlanks (stripComment line)
  if cs = [] then some []
  else readCommand (cs.takeWhile (fun c => !isBlank c)) (trimBlanks (cs.dropWhile (fun c => !isBlank c)))

end Sys2Proof.Machine
end

