-- ==== Sys2Proof/Machine/HostLoop.lean ====
section
/-! DEFINITION. The host: the transfer loop that drives the block (spec/43_host_contract.md R160 to R177). It is not behaviour
of the block (spec/00_scope.md R3 item 1) and no step of the machine calls it; it is transcribed as a driver of the step
function, so that what the host and the block do together can be stated. What the rules leave open is log entry 10. -/

namespace Sys2Proof.Machine

/-! ### Wire formats -/

/-- A 16-bit integer from two bytes, big-endian (R160). -/
def wire16 (b0 b1 : Byte) : BitVec 16 := b0 ++ b1

/-- The two bytes of a 16-bit integer, big-endian (R160). -/
def wireBytes (v : BitVec 16) : List Byte := [v.extractLsb' 8 8, v.extractLsb' 0 8]

/-- The positive acknowledgment of a block (R162). -/
def ackPacket (blockNumber : BitVec 16) : List Byte := wireBytes 4 ++ wireBytes blockNumber

/-- The negative acknowledgment of a block (R163). -/
def nackPacket (blockNumber : BitVec 16) : List Byte := wireBytes 6 ++ wireBytes blockNumber

/-- A received packet by its opcode (R161, R164, R167). -/
inductive Packet where
  /-- Opcode 3: the Block Number and the coded payload. -/
  | data (blockNumber : BitVec 16) (coded : List Byte)
  /-- Opcode 5: the error code and the message bytes. -/
  | protocolError (code : BitVec 16) (message : List Byte)
  /-- Any other opcode: fatal. -/
  | unknownOpcode (opcode : BitVec 16)
  /-- Too short for its format; the source gives it no reaction (spec/93_implementation_defined.md U20). -/
  | malformed
  deriving DecidableEq, Repr

/-- Classify a packet by its 2-byte opcode (R167). -/
def classify : List Byte → Packet
  | o0 :: o1 :: rest =>
    if wire16 o0 o1 = 3 then
      match rest with
      | n0 :: n1 :: coded => .data (wire16 n0 n1) coded
      | _ => .malformed
    else if wire16 o0 o1 = 5 then
      match rest with
      | c0 :: c1 :: message => .protocolError (wire16 c0 c1) message
      | _ => .malformed
    else .unknownOpcode (wire16 o0 o1)
  | _ => .malformed

/-! ### The loop -/

/-- Why the transfer failed for good (R170, R171, R172, R177). -/
inductive LoopFailure where
  /-- The peer's error, code and message as received. -/
  | protocolError (code : BitVec 16) (message : List Byte)
  /-- An opcode other than data and error. -/
  | unknownOpcode (opcode : BitVec 16)
  /-- The block answered a command with an interface fault. -/
  | malformedBlock
  /-- A packet too short for its format (log entry 10). -/
  | malformedPacket
  deriving DecidableEq, Repr

/-- How the transfer stands. -/
inductive LoopStatus where
  | running
  | complete
  | failed (r : LoopFailure)
  deriving DecidableEq, Repr

/-- The host with its block. -/
structure HostState where
  /-- The block the host drives. -/
  block  : State
  /-- The bytes handed to the file sink, in order (R166). -/
  sink   : List Byte
  /-- The packets sent, in order (R162, R163). -/
  sent   : List (List Byte)
  status : LoopStatus
  deriving DecidableEq, Repr

/-- Issue one command and wait for its response (R176); `none` when the model stops instead, which no state that keeps R32
does. -/
def issueCommand (i : Instr) (s : State) : Option (State × Rsp) :=
  match step (s.issue (encode i)) with
  | .next t => t.rsps.getLast?.map (fun r => (t, r))
  | .fault _ => none
  | .refused _ => none

/-- What the block made of one coded payload. -/
inductive Delivery where
  /-- The Decoded Bytes, read out. -/
  | accepted (s : State) (out : List Byte)
  /-- Uncorrectable. -/
  | rejected (s : State)
  /-- A command raised an interface fault, and left this state. -/
  | faulted (s : State)
  /-- The model stopped (`issueCommand`). -/
  | stopped
  deriving DecidableEq, Repr

/-- Issue a command; go on with its state and `rdata` if it did not fault. -/
def issueThen (i : Instr) (s : State) (k : State → BitVec 32 → Delivery) : Delivery :=
  match issueCommand i s with
  | none => .stopped
  | some (t, r) => if rflt r then .faulted t else k t (rdata r)

/-- Issue `RDOB` for each index from `i` on, `n` of them, after the bytes already read (R176). -/
def readOutput : Nat → Nat → List Byte → State → Delivery
  | _, 0, out, s => .accepted s out
  | i, n + 1, out, s =>
    issueThen (.rdob (BitVec.ofNat 9 i)) s (fun t v => readOutput (i + 1) n (out ++ [v.setWidth 8]) t)

/-- Run `PBLK` on the loaded block and read the output (R176). -/
def processLoaded (s : State) : Delivery :=
  issueThen .pblk s (fun t v =>
    if v.getLsbD 31 then .rejected t else readOutput 0 (v.extractLsb' 0 9).toNat [] t)

/-- Issue `BPUSH` for each byte in order, then process the block; a fault ends it (R176, R177). -/
def loadAndProcess : List Byte → State → Delivery
  | [], s => processLoaded s
  | b :: bs, s => issueThen (.bpush b) s (fun t _ => loadAndProcess bs t)

/-- Present one coded payload to the block: `BCLR`, the `BPUSH`es, `PBLK`, the `RDOB`s (R176). -/
def deliver (coded : List Byte) (s : State) : Delivery :=
  issueThen .bclr s (fun t _ => loadAndProcess coded t)

/-- The transfer fails for good: nothing more is sent, and what was partly written is discarded (R170, R172). -/
def HostState.fail (h : HostState) (r : LoopFailure) : HostState := { h with sink := [], status := .failed r }

/-- One turn of the loop on a received packet (R168 to R170, R176); after the end of the transfer nothing is received. -/
def onPacket (pkt : List Byte) (h : HostState) : HostState :=
  match h.status with
  | .running =>
    match classify pkt with
    | .protocolError code message => h.fail (.protocolError code message)
    | .unknownOpcode opcode => h.fail (.unknownOpcode opcode)
    | .malformed => h.fail .malformedPacket
    | .data bn coded =>
      match deliver coded h.block with
      | .faulted s => HostState.fail { h with block := s } .malformedBlock
      | .stopped => h.fail .malformedBlock
      | .rejected s => { h with block := s, sent := h.sent ++ [nackPacket bn] }
      | .accepted s out =>
        { block := s, sink := h.sink ++ out, sent := h.sent ++ [ackPacket bn],
          status := if pkt.length < 4 + Config.maxBlock then .complete else .running }
  | .complete => h
  | .failed _ => h

/-- The start of a transfer: `TRST`, nothing written, nothing sent (R176, spec/41_reassembler.md R131). -/
def startTransfer (s : State) : Option HostState :=
  (issueCommand .trst s).map (fun a => { block := a.1, sink := [], sent := [], status := .running })

end Sys2Proof.Machine
end

