-- ==== Sys2Proof/Machine/ReferenceEncoder.lean ====
section
/-! DEFINITION. The reference encoder (spec/40_codec.md R114). It is not part of the hardware, which only decodes; it serves to
build vectors and to state laws of the decoder. -/

namespace Sys2Proof.Machine

/-- Put the payload at the payload positions: `payload[25 - j]` at position `q_j`, all check positions 0 (R114, R64). -/
def placePayload (p : BitVec 26) : Word :=
  (0#1 ++ p.extractLsb' 11 15 ++ 0#1 ++ p.extractLsb' 4 7 ++ 0#1 ++ p.extractLsb' 1 3 ++ 0#1 ++ p.extractLsb' 0 1 ++ 0#2 :)

/-- The exclusive-or of the bits of `w` at the positions of `S_k` (R114), as bit `pos` of a word. -/
def checkBit (w : Word) (k pos : Nat) : Word := if parityBit w k then 0 else 1#32 <<< pos

/-- Set the five locating check bits, each from the other positions of its set (R114). Before that each of them is 0, so to set
it is to exclusive-or it in. -/
def placeChecks (w : Word) : Word :=
  w ^^^ checkBit w 0 0 ^^^ checkBit w 1 1 ^^^ checkBit w 2 3 ^^^ checkBit w 3 7 ^^^ checkBit w 4 15

/-- The reference encoder: payload, then the locating checks, then position 31 from positions 0..30 (R114). -/
def referenceEncode (p : BitVec 26) : Word :=
  placeChecks (placePayload p) ^^^ checkBit (placeChecks (placePayload p)) 5 31

end Sys2Proof.Machine
end

