-- ==== Sys2Proof/Safety.lean ====
section
/-! DEFINITION. The terms claims are stated in: the invariants of the state (spec/10_state.md R32), the clean-entry state
(spec/70_reset_and_hazards.md R245), a fault-free record (spec/60_exceptions.md R206), the duty of the host that the block
checks (spec/43_host_contract.md R178 HD5), and equality of states up to bytes no command can return
(spec/93_implementation_defined.md U8). -/

namespace Sys2Proof.Machine

/-- The invariants of R32 that concern one field each and the canonical carry of R22; `LO_CNT <= 7` is its width. The last
four say that the buffers are in canonical form and hold no index beyond their size (R40). -/
abbrev State.Inv (s : State) : Prop :=
  s.loReg.toNat < 2 ^ s.loCnt.toNat ∧ s.ilen.toNat ≤ Config.maxBlock ∧ s.olen.toNat ≤ Config.maxOut ∧
    s.fcode.toNat ≤ 4 ∧ s.ibuf.wf = true ∧ s.obuf.wf = true ∧
    s.ibuf.within Config.maxBlock = true ∧ s.obuf.within Config.maxOut = true

/-- `LO_CNT` is even (R32, spec/41_reassembler.md R127). -/
abbrev State.CarryEven (s : State) : Prop := s.loCnt.toNat % 2 = 0

/-- No fault is recorded (R206). -/
abbrev State.NoFault (s : State) : Prop := s.fcode = 0

/-- A clean-entry state (R245). -/
abbrev State.CleanEntry (s : State) : Prop := s.loCnt = 0 ∧ s.loReg = 0 ∧ s.ilen = 0 ∧ s.fcode = 0

/-- The checks a command makes itself (R207, HD5): `BPUSH` that there is room, `PBLK` that the length is a multiple of 4,
`RDOB` that the byte exists. -/
abbrev State.Admits (s : State) : Instr → Prop
  | .bpush _ => s.ilen.toNat < Config.maxBlock
  | .pblk => s.ilen.toNat % 4 = 0
  | .rdob idx => idx.toNat < s.olen.toNat
  | .nop => True
  | .trst => True
  | .bclr => True
  | .decw _ => True
  | .rdst => True
  | .rdln => True

/-- The block answers this command word with `ILLEGAL_CMD` in every state, and changes nothing but `FCODE` (R69, R204). -/
abbrev RaisesIllegalCmd (w : Cmd) : Prop :=
  ∀ s : State, perform w s = .next { s with
    fcode := if s.fcode = 0 then 1 else s.fcode, rsps := s.rsps ++ [faultRsp 1] }

/-- Two buffers agree on their first `n` bytes. -/
abbrev Memory.AgreeBelow (n : Nat) (m m' : Memory) : Prop := ∀ i < n, m.read i = m'.read i

/-- Two states are the same but for bytes no command can return: `IBUF` at or above `ILEN`, `OBUF` at or above `OLEN` (U8). -/
structure State.SameVisible (s t : State) : Prop where
  loCnt : s.loCnt = t.loCnt
  loReg : s.loReg = t.loReg
  ilen : s.ilen = t.ilen
  olen : s.olen = t.olen
  unc : s.unc = t.unc
  fcode : s.fcode = t.fcode
  inputs : s.inputs = t.inputs
  rsps : s.rsps = t.rsps
  ibuf : s.ibuf.AgreeBelow s.ilen.toNat t.ibuf
  obuf : s.obuf.AgreeBelow s.olen.toNat t.obuf

/-- The outcomes that are not a next state. -/
abbrev Result.Stops (r : Result) : Prop := ∀ t, r ≠ .next t

/-- The state an outcome gives, if it gives one. -/
def nextState? : Result → Option State
  | .next s => some s
  | .fault _ => none
  | .refused _ => none

/-- The inputs that issue these commands in order. -/
def commandInputs (is : List Instr) : List Input := is.map (fun i => .command (encode i))

end Sys2Proof.Machine
end

