-- ==== Sys2Proof/Certificates/Slice0/Obligations.lean ====
section
/-! DEFINITION. The statements for the provers. Each docstring names the rule of spec/ it formalises. -/

open Sys2Proof Sys2Proof.Machine

/-! ### Encoding -/

/-- 30_encoding.md R66 to R68. Every command, with every value of its operand, is read back from its encoding: no bit of an
encoding is dropped. -/
def Obligations.DecodeOfEncodeIsTheCommand : Prop :=
  ∀ i : Instr, decode (encode i) = .ok i

/-- 30_encoding.md section 4. A word that decodes is the encoding of what it decodes to: no command has a second spelling. -/
def Obligations.EncodeOfDecodeIsTheWord : Prop :=
  ∀ (w : Cmd) (i : Instr), decode w = .ok i → encode i = w

/-- 30_encoding.md R75, an inference the spec marks as derived: a word is the command of a row of spec/opcode_table.json
exactly when `word & mask = match`, and is illegal exactly when it matches no row. -/
def Obligations.DecoderAgreesWithTheOpcodeTable : Prop :=
  (∀ (w : Cmd) (r : OpcodeRow), r ∈ opcodeTable →
    (r.admits w = true ↔ ∃ i, decode w = .ok i ∧ mnemonicOf i = r.mnemonic)) ∧
  (∀ w : Cmd, (∃ e, decode w = .error e) ↔ ∀ r ∈ opcodeTable, r.admits w = false)

/-- 30_encoding.md R68, R69. The decoder accepts exactly the commands that pass the check of WellFormed.lean. -/
def Obligations.DecoderAcceptsTheWellFormedCommands : Prop :=
  ∀ w : Cmd, (∃ i, decode w = .ok i) ↔ (commandOf w).wellFormed = true

/-- 30_encoding.md R69. A word is illegal when `op` is in `0x09..0xFF` or a must-be-zero bit is 1; then the step raises
`ILLEGAL_CMD` and changes no field but `FCODE`; every other word is a command. -/
def Obligations.IllegalWordsRaiseIllegalCmd : Prop :=
  ∀ (w : Cmd) (s : State) (rest : List Input), s.inputs = .command w :: rest →
    ((9 ≤ (cmdOp w).toNat ∨
      ((cmdOp w).toNat ∈ [0, 1, 2, 4, 6, 7] ∧ cmdImm w ≠ 0) ∨
      ((cmdOp w).toNat = 3 ∧ (cmdImm w).extractLsb' 8 24 ≠ 0) ∨
      ((cmdOp w).toNat = 8 ∧ (cmdImm w).extractLsb' 9 23 ≠ 0)) ↔ ∃ e, decode w = .error e) ∧
    ((∃ e, decode w = .error e) →
      step s = .next { s with
        inputs := rest, fcode := if s.fcode = 0 then 1 else s.fcode, rsps := s.rsps ++ [faultRsp 1] })

/-- 95_test_vectors.md and 42_commands.md: words the spec writes out decode to the commands it says they are. -/
def Obligations.WordsWrittenInTheSpecDecode : Prop :=
  decode 0x0000000000 = .ok .nop ∧ decode 0x0100000000 = .ok .trst ∧ decode 0x0200000000 = .ok .bclr ∧
  decode 0x03000000D5 = .ok (.bpush 0xD5) ∧ decode 0x0400000000 = .ok .pblk ∧
  decode 0x0580000003 = .ok (.decw 0x80000003) ∧ decode 0x0600000000 = .ok .rdst ∧
  decode 0x0700000000 = .ok .rdln ∧ decode 0x080000012C = .ok (.rdob 300)

/-! ### The step -/

/-- 42_commands.md R140, at the model's own command port (log entry 1): a step takes the next command word, and performs its
command in the state with the port advanced; an illegal word raises `ILLEGAL_CMD` there. -/
def Obligations.StepRunsTheDecodedCommand : Prop :=
  ∀ (s : State) (w : Cmd) (rest : List Input), s.inputs = .command w :: rest →
    (∀ i, decode w = .ok i → step s = exec i { s with inputs := rest }) ∧
    (∀ e, decode w = .error e → step s = raiseFault .illegalCmd { s with inputs := rest })

/-- 60_exceptions.md R216 and log entry 2 (the model's choice): while nothing is issued a step keeps all state. -/
def Obligations.WithNothingIssuedTheBlockWaits : Prop :=
  ∀ s : State, s.inputs = [] → step s = .next s

/-- 70_reset_and_hazards.md section 1. The hardware reset, whatever the state, leaves the values of 10_state.md R31; no other step
clears `FCODE`; a run starts from these values. That the reset is an input which adds no response and leaves the later inputs
to come is not the spec's: it is the model's choice, log entry 6. -/
def Obligations.HardwareResetLeavesTheResetValues : Prop :=
  (∀ (s : State) (rest : List Input), s.inputs = .hardwareReset :: rest →
    ∃ t, step s = .next t ∧ t.loCnt = 0 ∧ t.loReg = 0 ∧ t.ilen = 0 ∧ t.olen = 0 ∧ t.unc = false ∧ t.fcode = 0 ∧
      t.inputs = rest ∧ t.rsps = s.rsps) ∧
  (∀ s t : State, step s = .next t → s.fcode ≠ 0 → t.fcode = 0 → ∃ rest, s.inputs = .hardwareReset :: rest) ∧
  (State.reset.loCnt = 0 ∧ State.reset.loReg = 0 ∧ State.reset.ilen = 0 ∧ State.reset.olen = 0 ∧
    State.reset.unc = false ∧ State.reset.fcode = 0)

/-! ### The nine commands -/

/-- 42_commands.md R141. -/
def Obligations.NopRespondsZeroAndChangesNothing : Prop :=
  encode .nop = 0x0000000000 ∧
  (∀ imm : BitVec 32, imm ≠ 0 → RaisesIllegalCmd (cmdWord 0x00 imm)) ∧
  (∀ s : State, exec .nop s = .next { s with rsps := s.rsps ++ [okRsp 0] })

/-- 42_commands.md R142: what `TRST` clears, and that it writes neither `FCODE` nor a buffer. -/
def Obligations.TrstClearsTheTransfer : Prop :=
  encode .trst = 0x0100000000 ∧
  (∀ imm : BitVec 32, imm ≠ 0 → RaisesIllegalCmd (cmdWord 0x01 imm)) ∧
  (∀ s : State, exec .trst s = .next { s with
    loCnt := 0, loReg := 0, ilen := 0, olen := 0, unc := false, rsps := s.rsps ++ [okRsp 0] })

/-- 70_reset_and_hazards.md R231: `TRST` gives the state a hardware reset gives, but for `FCODE` (and for its response), up to
the bytes no command can return. -/
def Obligations.TrstIsAResetThatKeepsFcode : Prop :=
  ∀ s : State, ∃ t, exec .trst s = .next t ∧
    State.SameVisible t { hardwareReset s with fcode := s.fcode, rsps := s.rsps ++ [okRsp 0] }

/-- 42_commands.md R143: `BCLR` writes `ILEN` and nothing else. -/
def Obligations.BclrEmptiesTheInputBuffer : Prop :=
  encode .bclr = 0x0200000000 ∧
  (∀ imm : BitVec 32, imm ≠ 0 → RaisesIllegalCmd (cmdWord 0x02 imm)) ∧
  (∀ s : State, exec .bclr s = .next { s with ilen := 0, rsps := s.rsps ++ [okRsp 0] })

/-- 42_commands.md R144: `BPUSH` stores its byte at `IBUF[ILEN]`, every other byte of `IBUF` reads as before, `ILEN` grows by
1 and nothing else changes; from `ILEN = 512` it raises `IBUF_OVERFLOW` and changes nothing but `FCODE`. -/
def Obligations.BpushAppendsAByte : Prop :=
  (∀ byte : Byte, (encode (.bpush byte)).toNat = 0x0300000000 + byte.toNat) ∧
  (∀ imm : BitVec 32, imm.extractLsb' 8 24 ≠ 0 → RaisesIllegalCmd (cmdWord 0x03 imm)) ∧
  (∀ (s : State) (byte : Byte), s.Inv →
    (s.ilen.toNat < 512 → ∃ t, exec (.bpush byte) s = .next t ∧
      t.ilen.toNat = s.ilen.toNat + 1 ∧
      t.ibuf.read s.ilen.toNat = byte ∧
      (∀ a, a ≠ s.ilen.toNat → t.ibuf.read a = s.ibuf.read a) ∧
      t = { s with ibuf := t.ibuf, ilen := t.ilen, rsps := s.rsps ++ [okRsp 0] }) ∧
    (s.ilen.toNat = 512 → exec (.bpush byte) s = .next { s with
      fcode := if s.fcode = 0 then 3 else s.fcode, rsps := s.rsps ++ [faultRsp 3] }))

/-- 42_commands.md R145: the three ways `PBLK` ends. On bad length nothing changes but `FCODE`; on Uncorrectable the carry is as
it was and no byte is readable; on success `OBUF[0..OLEN)` is the Decoded Bytes, every other byte of `OBUF` reads as
before, and the carry is the new one. In both of the last the block is consumed. Last the corner cases: an empty block
succeeds and keeps the carry, a full block that succeeds gives 416 bytes and keeps `LO_CNT`. -/
def Obligations.PblkProcessesTheLoadedBlock : Prop :=
  encode .pblk = 0x0400000000 ∧
  (∀ imm : BitVec 32, imm ≠ 0 → RaisesIllegalCmd (cmdWord 0x04 imm)) ∧
  (∀ s : State, s.Inv →
    (s.ilen.toNat % 4 ≠ 0 → exec .pblk s = .next { s with
      fcode := if s.fcode = 0 then 2 else s.fcode, rsps := s.rsps ++ [faultRsp 2] }) ∧
    (s.ilen.toNat % 4 = 0 →
      (processBlock (s.ibuf.readBytes 0 s.ilen.toNat) s.lo = .uncorrectable ∧
        ∃ t, exec .pblk s = .next t ∧
          t = { s with unc := true, olen := 0, ilen := 0, obuf := t.obuf, rsps := s.rsps ++ [okRsp 0x80000000] }) ∨
      (∃ out lo', processBlock (s.ibuf.readBytes 0 s.ilen.toNat) s.lo = .decoded out lo' ∧
        ∃ t, exec .pblk s = .next t ∧
          t.olen.toNat = out.length ∧
          (∀ j (h : j < out.length), t.obuf.read j = out[j]) ∧
          (∀ j, out.length ≤ j → t.obuf.read j = s.obuf.read j) ∧
          t.loCnt.toNat = lo'.length ∧ t.loReg.toNat = natOfBits lo' ∧
          t = { s with
            loCnt := t.loCnt, loReg := t.loReg, obuf := t.obuf, olen := t.olen, unc := false, ilen := 0,
            rsps := s.rsps ++ [okRsp (BitVec.ofNat 32 out.length)] })) ∧
    (s.ilen = 0 → exec .pblk s = .next { s with olen := 0, unc := false, rsps := s.rsps ++ [okRsp 0] }) ∧
    (∀ t, s.ilen.toNat = 512 → exec .pblk s = .next t → t.unc = false → t.olen = 416 ∧ t.loCnt = s.loCnt))

/-- 42_commands.md R146, with 30_encoding.md R71 and R65: `DECW` responds with the payload of the corrected word as a number, or
`0x80000000`, and changes nothing; every operand is legal. -/
def Obligations.DecwRespondsWithThePayload : Prop :=
  (∀ word : Word, (encode (.decw word)).toNat = 0x0500000000 + word.toNat ∧
    decode (cmdWord 0x05 word) = .ok (.decw word)) ∧
  (∀ (word : Word) (s : State),
    (decodeWord word = none → exec (.decw word) s = .next { s with rsps := s.rsps ++ [okRsp 0x80000000] }) ∧
    (∀ d, decodeWord word = some d →
      exec (.decw word) s = .next { s with rsps := s.rsps ++ [okRsp ((payload (corrected word)).setWidth 32)] }))

/-- 42_commands.md R147 and 30_encoding.md R72: the status word, field by field; nothing else changes. -/
def Obligations.RdstRespondsWithTheStatusWord : Prop :=
  encode .rdst = 0x0600000000 ∧
  (∀ imm : BitVec 32, imm ≠ 0 → RaisesIllegalCmd (cmdWord 0x06 imm)) ∧
  (∀ s : State, ∃ v : BitVec 32, exec .rdst s = .next { s with rsps := s.rsps ++ [okRsp v] } ∧
    v.getLsbD 31 = s.unc ∧ v.extractLsb' 28 3 = s.fcode ∧ v.extractLsb' 11 17 = 0 ∧ v.extractLsb' 8 3 = s.loCnt ∧
    v.getLsbD 7 = false ∧ v.extractLsb' 0 7 = s.loReg)

/-- 42_commands.md R148 and 30_encoding.md R73: the length word, field by field; nothing else changes. -/
def Obligations.RdlnRespondsWithTheLengthWord : Prop :=
  encode .rdln = 0x0700000000 ∧
  (∀ imm : BitVec 32, imm ≠ 0 → RaisesIllegalCmd (cmdWord 0x07 imm)) ∧
  (∀ s : State, ∃ v : BitVec 32, exec .rdln s = .next { s with rsps := s.rsps ++ [okRsp v] } ∧
    v.extractLsb' 26 6 = 0 ∧ v.extractLsb' 16 10 = s.ilen ∧ v.extractLsb' 9 7 = 0 ∧ v.extractLsb' 0 9 = s.olen)

/-- 42_commands.md R149: `RDOB` responds with `OBUF[idx]` zero-extended and changes nothing; with `idx >= OLEN` it raises
`BAD_INDEX` and changes nothing but `FCODE`, so for every `idx` from 416 on. -/
def Obligations.RdobReadsADecodedByte : Prop :=
  (∀ idx : BitVec 9, (encode (.rdob idx)).toNat = 0x0800000000 + idx.toNat) ∧
  (∀ imm : BitVec 32, imm.extractLsb' 9 23 ≠ 0 → RaisesIllegalCmd (cmdWord 0x08 imm)) ∧
  (∀ (s : State) (idx : BitVec 9), s.Inv →
    (idx.toNat < s.olen.toNat → exec (.rdob idx) s = .next { s with
      rsps := s.rsps ++ [okRsp ((s.obuf.read idx.toNat).setWidth 32)] }) ∧
    (s.olen.toNat ≤ idx.toNat ∨ 416 ≤ idx.toNat → exec (.rdob idx) s = .next { s with
      fcode := if s.fcode = 0 then 4 else s.fcode, rsps := s.rsps ++ [faultRsp 4] }))

/-! ### Frames, completion and faults, over all commands -/

/-- 42_commands.md R150, a table the spec marks as derived: which command may change which field. A change of `FCODE` comes with
a fault response. The port is never touched by a command, and it answers exactly once. -/
def Obligations.EachFieldChangesOnlyByItsWriters : Prop :=
  ∀ (i : Instr) (s t : State), exec i s = .next t →
    ((t.loCnt ≠ s.loCnt ∨ t.loReg ≠ s.loReg) → i = .trst ∨ i = .pblk) ∧
    (t.ibuf ≠ s.ibuf → ∃ byte, i = .bpush byte) ∧
    (t.ilen ≠ s.ilen → i = .trst ∨ i = .bclr ∨ i = .pblk ∨ ∃ byte, i = .bpush byte) ∧
    (t.obuf ≠ s.obuf → i = .pblk) ∧
    (t.olen ≠ s.olen → i = .trst ∨ i = .pblk) ∧
    (t.unc ≠ s.unc → i = .trst ∨ i = .pblk) ∧
    t.inputs = s.inputs ∧
    ∃ r, t.rsps = s.rsps ++ [r] ∧ (t.fcode ≠ s.fcode → rflt r = true)

/-- 20_memory.md R40, R44 and 42_commands.md R153: the bytes of both buffers a command leaves alone. Only `BPUSH` stores to
`IBUF`, at the index `ILEN` and only when `ILEN < 512`; only `PBLK` stores to `OBUF`, at indices `0..|out|` and only when the
block decodes to `out`. -/
def Obligations.BytesOutsideTheStoreReadAsBefore : Prop :=
  ∀ (i : Instr) (s t : State), exec i s = .next t →
    (∀ a, (∀ byte, i = .bpush byte → ¬(s.ilen.toNat < 512 ∧ a = s.ilen.toNat)) → t.ibuf.read a = s.ibuf.read a) ∧
    (∀ a, (i = .pblk → s.ilen.toNat % 4 = 0 → ∀ out lo',
        processBlock (s.ibuf.readBytes 0 s.ilen.toNat) s.lo = .decoded out lo' → out.length ≤ a) →
      t.obuf.read a = s.obuf.read a)

/-- 42_commands.md R140 and 30_encoding.md R70: in every state that keeps R32 every command completes, with exactly one
response. -/
def Obligations.EveryCommandCompletesWithOneResponse : Prop :=
  ∀ (i : Instr) (s : State), s.Inv → ∃ t r, exec i s = .next t ∧ t.rsps = s.rsps ++ [r] ∧ t.inputs = s.inputs

/-- 00_scope.md R10 (the step function is total) and 60_exceptions.md R206 (there is no stuck state): from every state that
keeps R32 the machine takes a step. -/
def Obligations.TheMachineNeverStops : Prop :=
  ∀ s : State, s.Inv → ∃ t, step s = .next t

/-- 60_exceptions.md R204: fault entry. Whatever command word a step takes, if the response it adds says fault, then the state
is as before in every field but `FCODE`, which records the code if it was 0; the response carries the code; the port has
advanced, so that the next command is taken as usual. -/
def Obligations.AFaultWritesOnlyFcode : Prop :=
  ∀ (s t : State) (w : Cmd) (rest : List Input) (r : Rsp), s.inputs = .command w :: rest → step s = .next t →
    t.rsps = s.rsps ++ [r] → rflt r = true →
    ∃ f : InterfaceFault, rdata r = f.code.setWidth 32 ∧
      t = { s with inputs := rest, fcode := if s.fcode = 0 then f.code else s.fcode, rsps := s.rsps ++ [r] }

/-- 60_exceptions.md R203: the four interface faults. In a state that keeps R32 the response to a command word carries code 1
exactly for an illegal word, 2 exactly for `PBLK` with `ILEN mod 4 != 0`, 3 exactly for `BPUSH` with `ILEN = 512`, 4 exactly
for `RDOB idx` with `idx >= OLEN`, and there is no other fault; the code is recorded if `FCODE` was 0. -/
def Obligations.EachFaultHasItsCause : Prop :=
  ∀ (s : State) (w : Cmd) (rest : List Input), s.Inv → s.inputs = .command w :: rest →
    ∃ t r, step s = .next t ∧ t.rsps = s.rsps ++ [r] ∧
      (rflt r = true → rdata r = 1 ∨ rdata r = 2 ∨ rdata r = 3 ∨ rdata r = 4) ∧
      (rflt r = true → s.fcode = 0 → t.fcode.setWidth 32 = rdata r) ∧
      ((rflt r = true ∧ rdata r = 1) ↔ ∃ e, decode w = .error e) ∧
      ((rflt r = true ∧ rdata r = 2) ↔ decode w = .ok .pblk ∧ s.ilen.toNat % 4 ≠ 0) ∧
      ((rflt r = true ∧ rdata r = 3) ↔ (∃ byte, decode w = .ok (.bpush byte)) ∧ s.ilen.toNat = 512) ∧
      ((rflt r = true ∧ rdata r = 4) ↔ ∃ idx, decode w = .ok (.rdob idx) ∧ s.olen.toNat ≤ idx.toNat)

/-- 60_exceptions.md R205: once non-zero, `FCODE` keeps its value through every step but the hardware reset, which returns it to
0; a fault raised then still answers with its own code. -/
def Obligations.FcodeIsStickyAndFirstWins : Prop :=
  (∀ s t : State, step s = .next t → s.fcode ≠ 0 → (∀ rest, s.inputs ≠ .hardwareReset :: rest) → t.fcode = s.fcode) ∧
  (∀ (s : State) (rest : List Input), s.inputs = .hardwareReset :: rest → ∃ t, step s = .next t ∧ t.fcode = 0) ∧
  (∀ (s : State) (f : InterfaceFault), s.fcode ≠ 0 →
    raiseFault f s = .next { s with rsps := s.rsps ++ [faultRsp f.code] })

/-- 43_host_contract.md R178 HD5 and 60_exceptions.md R207: in a state that keeps R32 a command that passes its own check does
not fault, and one that does not pass it faults. -/
def Obligations.OnlyABrokenCheckFaults : Prop :=
  ∀ (i : Instr) (s : State), s.Inv → ∃ t r, exec i s = .next t ∧ t.rsps = s.rsps ++ [r] ∧
    (s.Admits i → rflt r = false ∧ t.fcode = s.fcode) ∧ (¬s.Admits i → rflt r = true)

/-- 20_memory.md R46: a `RDOB`, `RDST`, `RDLN` or `DECW` that does not fault changes no state, and repeated at once it gives the
same response. -/
def Obligations.ReadsHaveNoSideEffect : Prop :=
  ∀ (i : Instr) (s : State), s.Inv → s.Admits i →
    (i = .rdst ∨ i = .rdln ∨ (∃ word, i = .decw word) ∨ ∃ idx, i = .rdob idx) →
    ∃ r, exec i s = .next { s with rsps := s.rsps ++ [r] } ∧
      exec i { s with rsps := s.rsps ++ [r] } = .next { s with rsps := s.rsps ++ [r] ++ [r] }

/-- 10_state.md R23, 43_host_contract.md R179: the carry changes only by the hardware reset, by `TRST`, and by a `PBLK` whose
whole block decoded. -/
def Obligations.TheCarryChangesOnlyBySuccessOrReset : Prop :=
  ∀ s t : State, step s = .next t → (t.loCnt ≠ s.loCnt ∨ t.loReg ≠ s.loReg) →
    (∃ rest, s.inputs = .hardwareReset :: rest) ∨
    ∃ w rest, s.inputs = .command w :: rest ∧
      (decode w = .ok .trst ∨
        (decode w = .ok .pblk ∧ s.ilen.toNat % 4 = 0 ∧
          ∃ out lo', processBlock (s.ibuf.readBytes 0 s.ilen.toNat) s.lo = .decoded out lo'))

/-! ### The codec -/

/-- 40_codec.md R100 and 30_encoding.md R62: the mask `M_k` holds exactly the positions of the coverage set `S_k`, and `pv[k]`
is true exactly when an even number of positions of `S_k` hold a 1. -/
def Obligations.ParityCountsTheCoverageSet : Prop :=
  ∀ k : Nat, k < 6 →
    (∀ p : Nat, p < 32 → ((parityMask k).getLsbD p = true ↔ k = 5 ∨ (p + 1).testBit k = true)) ∧
    (∀ w : Word, (parity w).get k = even (popcount (w &&& parityMask k)) ∧
      ((parity w).get k = true ↔ ((List.range 32).countP (fun p => inCoverage k p && w.getLsbD p)) % 2 = 0))

/-- 40_codec.md R101: bit `k` of the candidate position is a discrepancy in check `k`, `pv[5]` takes no part, and the candidate
position is the exclusive-or of `(p + 1) mod 32` over the positions `p` that hold a 1. -/
def Obligations.SyndromeIsTheExclusiveOrOfPositions : Prop :=
  (∀ (pv : ParityVector) (k : Nat), k < 5 → (syndrome pv).getLsbD k = !pv.get k) ∧
  (∀ w : Word, syndrome (parity w) = (onesOf w).foldl (fun e p => e ^^^ BitVec.ofNat 5 (p + 1)) 0)

/-- 40_codec.md R102: CORRECT flips exactly the position `e - 1`, which is never 31, and nothing when `e = 0`. -/
def Obligations.CorrectFlipsOnePosition : Prop :=
  ∀ (w : Word) (e : BitVec 5) (p : Nat), p < 32 →
    (correct w e).getLsbD p = (w.getLsbD p ^^ decide (e ≠ 0 ∧ p = e.toNat - 1)) ∧ (e ≠ 0 → e.toNat - 1 ≤ 30)

/-- 40_codec.md R104 with 30_encoding.md R64 and R65: the payload is the bits at the positions that are no check position,
highest first; as a number it is `{ W[30:16], W[14:8], W[6:4], W[2] }`; the check bits have no influence. -/
def Obligations.ExtractTakesTheNonCheckPositions : Prop :=
  (∀ w : Word, extract w =
    (((List.range 32).filter (fun p => !Config.checkPositions.contains p)).map w.getLsbD).reverse) ∧
  (∀ w : Word, natOfBits (extract w) = (payload w).toNat) ∧
  (∀ w w' : Word, (∀ p < 32, p ∉ Config.checkPositions → w.getLsbD p = w'.getLsbD p) → extract w = extract w')

/-- 40_codec.md R112 and R117, inferences the spec marks as derived: the residual test never fires, and the four cases of the
received word's syndrome and overall parity. -/
def Obligations.TheFourCasesOfAReceivedWord : Prop :=
  ∀ w : Word,
    syndrome (parity (corrected w)) = 0 ∧
    (syndrome (parity w) = 0 → (parity w).p5 = true → decodeWord w = some (extract w)) ∧
    (syndrome (parity w) ≠ 0 → (parity w).p5 = false →
      decodeWord w = some (extract (w ^^^ (1#32 <<< ((syndrome (parity w)).toNat - 1))))) ∧
    (syndrome (parity w) = 0 → (parity w).p5 = false → decodeWord w = none) ∧
    (syndrome (parity w) ≠ 0 → (parity w).p5 = true → decodeWord w = none)

/-- 40_codec.md R108, R109 and R110, inferences the spec marks as derived (90_conflicts.md C2): a valid codeword decodes to its
payload; so does it with any one of the positions 0..30 flipped; with position 31 flipped it is Uncorrectable. -/
def Obligations.SingleErrorsAreCorrectedButForPosition31 : Prop :=
  ∀ c : Word, validCodeword c = true →
    decodeWord c = some (extract c) ∧
    (∀ p < 31, decodeWord (c ^^^ (1#32 <<< p)) = some (extract c)) ∧
    decodeWord (c ^^^ (1#32 <<< 31)) = none

/-- 40_codec.md R111, an inference the spec marks as derived: every double error is Uncorrectable. -/
def Obligations.DoubleErrorsAreUncorrectable : Prop :=
  ∀ c : Word, validCodeword c = true → ∀ p < 32, ∀ q < 32, p ≠ q →
    decodeWord (c ^^^ (1#32 <<< p) ^^^ (1#32 <<< q)) = none

/-- 40_codec.md R113, an inference the spec marks as derived (90_conflicts.md C3): three errors whose position numbers
exclusive-or to 0 are Uncorrectable, and any other three give another payload as a success. -/
def Obligations.TripleErrorsMiscorrectUnlessTheyCancel : Prop :=
  ∀ c : Word, validCodeword c = true → ∀ p < 32, ∀ q < p, ∀ r < q,
    let w := c ^^^ (1#32 <<< p) ^^^ (1#32 <<< q) ^^^ (1#32 <<< r)
    let e := BitVec.ofNat 5 (p + 1) ^^^ BitVec.ofNat 5 (q + 1) ^^^ BitVec.ofNat 5 (r + 1)
    (e = 0 → decodeWord w = none) ∧ (e ≠ 0 → ∃ d, decodeWord w = some d ∧ d ≠ extract c)

/-- 40_codec.md R107 and R114, inferences the spec marks as derived: the reference encoder gives the one valid codeword with a
given payload. -/
def Obligations.TheReferenceEncoderGivesTheOneCodeword : Prop :=
  ∀ p : BitVec 26,
    validCodeword (referenceEncode p) = true ∧ payload (referenceEncode p) = p ∧
    ∀ c : Word, validCodeword c = true → payload c = p → c = referenceEncode p

/-- 95_test_vectors.md T19 (exactly half of all words are Uncorrectable): flipping position 31 turns a word that decodes into
one that does not, and the other way round. -/
def Obligations.Position31DecidesAcceptance : Prop :=
  ∀ w : Word, decodeWord (w ^^^ (1#32 <<< 31)) = none ↔ decodeWord w ≠ none

/-! ### The reassembler -/

/-- 20_memory.md R41: the words of a block held in a buffer, big-endian; bit 7 of the first byte is position 31 and bit 0 of the
fourth is position 0. -/
def Obligations.WordsAreBigEndian : Prop :=
  ∀ (m : Memory) (n j : Nat), 4 * j + 4 ≤ n →
    ∃ w, (wordsOfBytes (m.readBytes 0 n))[j]? = some w ∧
      w = ((m.read (4 * j)).setWidth 32 <<< 24) ||| ((m.read (4 * j + 1)).setWidth 32 <<< 16) |||
        ((m.read (4 * j + 2)).setWidth 32 <<< 8) ||| (m.read (4 * j + 3)).setWidth 32 ∧
      w.getLsbD 31 = (m.read (4 * j)).getLsbD 7 ∧ w.getLsbD 0 = (m.read (4 * j + 3)).getLsbD 0

/-- 41_reassembler.md R120 with 20_memory.md R42: `append_word` loses no bit and keeps their order. The bits of the bytes, each
most significant first, followed by the new Leftover Bits are the old Leftover Bits followed by the payload; three or four
bytes come out, and at most 7 bits are left. -/
def Obligations.AppendWordKeepsEveryBitInOrder : Prop :=
  ∀ lo s : List Bool, lo.length ≤ 7 → s.length = 26 →
    (appendWord lo s).1.flatMap (fun b => bitsOfNat b.toNat 8) ++ (appendWord lo s).2 = lo ++ s ∧
    (appendWord lo s).1.length = (if lo.length ≤ 5 then 3 else 4) ∧ (appendWord lo s).2.length ≤ 7

/-- 41_reassembler.md R121, an inference the spec marks as derived: the integer form is the same function. -/
def Obligations.AppendWordIntegerFormAgrees : Prop :=
  ∀ c r p : Nat, c ≤ 7 → r < 2 ^ c → p < 2 ^ 26 →
    appendWordInt c r p =
      ((appendWord (bitsOfNat r c) (bitsOfNat p 26)).1,
        (appendWord (bitsOfNat r c) (bitsOfNat p 26)).2.length,
        natOfBits (appendWord (bitsOfNat r c) (bitsOfNat p 26)).2)

/-- 41_reassembler.md R122, an inference the spec marks as derived: over the words of a block the bytes and the final Leftover
Bits are the first Leftover Bits followed by all payloads, cut once; their numbers are `(c + 26 n) div 8` and
`(c + 26 n) mod 8`. -/
def Obligations.BytesOfABlockAreTheWholeStreamCutOnce : Prop :=
  ∀ (ws : List Word) (lo lo' : List Bool) (out : List Byte), processWords ws lo = .decoded out lo' →
    out.flatMap (fun b => bitsOfNat b.toNat 8) ++ lo' = lo ++ ws.flatMap (fun w => extract (corrected w)) ∧
    (lo.length ≤ 7 → out.length = (lo.length + 26 * ws.length) / 8 ∧ lo'.length = (lo.length + 26 * ws.length) % 8)

/-- 95_test_vectors.md part 4 item 12: how the words are divided into blocks does not matter as long as all succeed. -/
def Obligations.DivisionIntoBlocksDoesNotMatter : Prop :=
  ∀ (ws vs : List Word) (lo : List Bool),
    processWords (ws ++ vs) lo =
      match processWords ws lo with
      | .decoded out lo' => (processWords vs lo').prepend out
      | .uncorrectable => .uncorrectable
      | .notDefined => .notDefined

/-- 41_reassembler.md R124: one Uncorrectable word anywhere, and only that, fails the block; then `PBLK` produces no byte and
leaves the carry bit for bit as it was. -/
def Obligations.OneBadWordAbortsTheBlock : Prop :=
  (∀ (ws : List Word) (lo : List Bool), processWords ws lo = .uncorrectable ↔ ∃ w ∈ ws, decodeWord w = none) ∧
  (∀ s : State, s.Inv → s.ilen.toNat % 4 = 0 →
    (∃ w ∈ wordsOfBytes (s.ibuf.readBytes 0 s.ilen.toNat), decodeWord w = none) →
    ∃ t, exec .pblk s = .next t ∧ t.lo = s.lo ∧ t.loCnt = s.loCnt ∧ t.loReg = s.loReg ∧ t.olen = 0 ∧ t.unc = true ∧
      t.rsps = s.rsps ++ [okRsp 0x80000000])

/-- 41_reassembler.md R125 and R126, inferences the spec marks as derived: an empty block gives no bytes and keeps the carry; a
block gives at most 416 bytes; a full block gives exactly 416 and keeps the number of Leftover Bits. -/
def Obligations.OutputBounds : Prop :=
  (∀ lo : List Bool, processBlock [] lo = .decoded [] lo) ∧
  (∀ (blk : List Byte) (lo lo' : List Bool) (out : List Byte), lo.length ≤ 7 → processBlock blk lo = .decoded out lo' →
    out.length ≤ 416 ∧ (blk.length = 512 → out.length = 416 ∧ lo'.length = lo.length))

/-! ### Runs -/

/-- 42_commands.md R151, the law that ties the levels, which the spec marks as derived: from a state with `ILEN = 0` the bytes of
a block pushed one by one and then `PBLK` end in what `process_block` gives. -/
def Obligations.PushingABlockAndProcessingItIsProcessBlock : Prop :=
  ∀ (s : State) (blk : List Byte) (rest : List Input), s.Inv → s.ilen = 0 → blk.length ≤ 512 → blk.length % 4 = 0 →
    s.inputs = commandInputs (blk.map .bpush ++ [.pblk]) ++ rest →
    ∃ t : State, Sys2Proof.core.run (blk.length + 1) s = .next t ∧
      t.inputs = rest ∧ t.ilen = 0 ∧ t.fcode = s.fcode ∧
      ((processBlock blk s.lo = .uncorrectable ∧ t.lo = s.lo ∧ t.olen = 0 ∧ t.unc = true) ∨
        ∃ out lo', processBlock blk s.lo = .decoded out lo' ∧ t.lo = lo' ∧ t.olen.toNat = out.length ∧
          t.obuf.readBytes 0 out.length = out ∧ t.unc = false)

/-- 30_encoding.md R77: the pseudo-instruction `BLOCK w0, ..., wn-1`, run from any state that keeps R32, processes exactly those
words, whatever was loaded before. -/
def Obligations.TheBlockPseudoInstructionProcessesItsWords : Prop :=
  ∀ (s : State) (ws : List Word) (rest : List Input), s.Inv → ws.length ≤ 128 →
    s.inputs = commandInputs (blockProgram ws) ++ rest →
    ∃ t : State, Sys2Proof.core.run (4 * ws.length + 2) s = .next t ∧
      t.inputs = rest ∧ t.ilen = 0 ∧ t.fcode = s.fcode ∧
      ((processWords ws s.lo = .uncorrectable ∧ t.lo = s.lo ∧ t.olen = 0 ∧ t.unc = true) ∨
        ∃ out lo', processWords ws s.lo = .decoded out lo' ∧ t.lo = lo' ∧ t.olen.toNat = out.length ∧
          t.obuf.readBytes 0 out.length = out ∧ t.unc = false)

/-- 43_host_contract.md R168, R169 and R177, with the host of R176 driving the block by commands: on a data packet that decodes
the bytes go to the sink and a positive acknowledgment is sent, and the transfer is complete exactly when the packet is
shorter than 516 bytes; on Uncorrectable a negative acknowledgment is sent, nothing is written and the transfer goes on; a
payload whose length is not a multiple of 4, or over 512 bytes, is fatal and nothing is sent. The host is the model's
transcription of that loop, with the choices of log entry 10. -/
def Obligations.TheHostLoopHandlesADataPacket : Prop :=
  ∀ (h : HostState) (n0 n1 : Byte) (coded : List Byte), h.block.Inv → h.status = .running →
    (coded.length % 4 = 0 → coded.length ≤ 512 →
      (processBlock coded h.block.lo = .uncorrectable →
        ∃ s, onPacket ([0, 3, n0, n1] ++ coded) h =
            { block := s, sink := h.sink, sent := h.sent ++ [[0, 6, n0, n1]], status := .running } ∧
          s.lo = h.block.lo) ∧
      (∀ out lo', processBlock coded h.block.lo = .decoded out lo' →
        ∃ s, onPacket ([0, 3, n0, n1] ++ coded) h =
            { block := s, sink := h.sink ++ out, sent := h.sent ++ [[0, 4, n0, n1]],
              status := if ([0, 3, n0, n1] ++ coded).length < 516 then .complete else .running } ∧
          s.lo = lo')) ∧
    (coded.length % 4 ≠ 0 ∨ 512 < coded.length →
      (onPacket ([0, 3, n0, n1] ++ coded) h).status = .failed .malformedBlock ∧
      (onPacket ([0, 3, n0, n1] ++ coded) h).sent = h.sent)

/-- 43_host_contract.md R170: a protocol-error packet ends the transfer with its code and message unmodified, and nothing more
is sent. The host is the model's transcription (log entry 10). -/
def Obligations.AProtocolErrorIsFatal : Prop :=
  ∀ (h : HostState) (c0 c1 : Byte) (message : List Byte), h.status = .running →
    (onPacket ([0, 5, c0, c1] ++ message) h).status = .failed (.protocolError (c0 ++ c1) message) ∧
    (onPacket ([0, 5, c0, c1] ++ message) h).sent = h.sent ∧
    ∀ pkt, onPacket pkt (onPacket ([0, 5, c0, c1] ++ message) h) = onPacket ([0, 5, c0, c1] ++ message) h

/-! ### Invariants -/

/-- 10_state.md R32, which the spec marks as derived: every step keeps the invariants, with the canonical form of both
buffers. -/
def Obligations.EveryStepKeepsTheInvariants : Prop :=
  ∀ s t : State, s.Inv → step s = .next t → t.Inv

/-- 10_state.md R32: the invariants hold at reset. -/
def Obligations.TheInvariantsHoldAtReset : Prop :=
  State.reset.Inv ∧ State.reset.CarryEven ∧ State.reset.NoFault ∧ State.reset.CleanEntry

/-- 41_reassembler.md R127, an inference the spec marks as derived: every step keeps the number of Leftover Bits even. -/
def Obligations.EveryStepKeepsTheCarryEven : Prop :=
  ∀ s t : State, s.CarryEven → step s = .next t → t.CarryEven

/-- 10_state.md R31 and R33, 93_implementation_defined.md U8: bytes of `IBUF` at or above `ILEN` and of `OBUF` at or above
`OLEN` have no influence. Two states that keep R32 and differ only there step to states that differ only there, with the
same responses. So no claim about responses rests on what the model chose for such bytes (log entries 5, 6, 7). -/
def Obligations.UnreadableBytesHaveNoInfluence : Prop :=
  ∀ s s' t : State, s.Inv → s'.Inv → State.SameVisible s s' → step s = .next t →
    ∃ t', step s' = .next t' ∧ State.SameVisible t t'

/-! ### The assembler -/

/-- 30_encoding.md R76, with the text form of log entry 11 (the model's choice): a command written as text is read back, with or
without a comment after it. -/
def Obligations.AssemblerTextReadsBack : Prop :=
  ∀ (i : Instr) (comment : List Char),
    assembleLine (showInstr i) = some [i] ∧ assembleLine (showInstr i ++ ' ' :: ';' :: comment) = some [i]
end

