-- ==== Sys2Proof/Laws/Bits.lean ====
section
/-! SUPPORT. Laws of bit sequences and their integer form (spec/00_scope.md R6). -/

namespace Sys2Proof.Machine

@[simp] theorem bitsOfNat_length (v n : Nat) : (bitsOfNat v n).length = n := by
  induction n with
  | zero => rfl
  | succ n ih => simp [bitsOfNat, ih]

theorem natOfBits_foldl (s : List Bool) (a : Nat) :
    s.foldl (fun n b => 2 * n + b.toNat) a = a * 2 ^ s.length + natOfBits s := by
  induction s generalizing a with
  | nil => simp [natOfBits]
  | cons b s ih =>
    simp only [List.foldl_cons, List.length_cons, natOfBits]
    rw [ih, ih (2 * 0 + b.toNat)]
    ring

@[simp] theorem natOfBits_nil : natOfBits [] = 0 := rfl

theorem natOfBits_append (s t : List Bool) : natOfBits (s ++ t) = natOfBits s * 2 ^ t.length + natOfBits t := by
  rw [natOfBits, List.foldl_append, natOfBits_foldl]
  rfl

theorem natOfBits_cons (b : Bool) (s : List Bool) : natOfBits (b :: s) = b.toNat * 2 ^ s.length + natOfBits s := by
  have h := natOfBits_append [b] s
  simpa [natOfBits] using h

theorem natOfBits_lt (s : List Bool) : natOfBits s < 2 ^ s.length := by
  induction s with
  | nil => simp
  | cons b s ih =>
    rw [natOfBits_cons, List.length_cons, pow_succ]
    cases b <;> simp <;> omega

theorem natOfBits_bitsOfNat (v n : Nat) : natOfBits (bitsOfNat v n) = v % 2 ^ n := by
  induction n with
  | zero => simp [bitsOfNat, Nat.mod_one]
  | succ n ih =>
    rw [bitsOfNat, natOfBits_cons, ih, bitsOfNat_length, Nat.mod_pow_succ, Nat.toNat_testBit]
    ring

theorem bitsOfNat_natOfBits (s : List Bool) (a : Nat) :
    bitsOfNat (a * 2 ^ s.length + natOfBits s) s.length = s := by
  induction s generalizing a with
  | nil => rfl
  | cons b s ih =>
    have hlt := natOfBits_lt s
    rw [natOfBits_cons, List.length_cons, bitsOfNat]
    have e : a * 2 ^ (s.length + 1) + (b.toNat * 2 ^ s.length + natOfBits s)
        = (a * 2 + b.toNat) * 2 ^ s.length + natOfBits s := by ring
    rw [e, ih]
    congr 1
    rw [Nat.mul_comm, Nat.testBit_two_pow_mul_add _ hlt]
    cases b <;> simp [Nat.testBit_zero]

/-- A bit sequence is recovered from its integer form and its length (R6). -/
theorem bitsOfNat_natOfBits_self (s : List Bool) : bitsOfNat (natOfBits s) s.length = s := by
  simpa using bitsOfNat_natOfBits s 0

theorem even_iff (n : Nat) : even n = true ↔ n % 2 = 0 := by simp [even]

end Sys2Proof.Machine
end

