-- ==== Sys2Proof/Laws/Codec.lean ====
section
/-! SUPPORT. The algebra of the codec (spec/40_codec.md): parity is linear over exclusive-or, a word with one bit set has that
bit's column of the parity-check matrix (spec/30_encoding.md R63), and the composition unfolds once here. -/

namespace Sys2Proof.Machine

theorem even_popcountBelow_xor (a b : Word) (n : Nat) :
    even (popcountBelow (a ^^^ b) n) = (even (popcountBelow a n) == even (popcountBelow b n)) := by
  have mod2 : ∀ n, popcountBelow (a ^^^ b) n % 2 = (popcountBelow a n + popcountBelow b n) % 2 := by
    intro n
    induction n with
    | zero => rfl
    | succ n ih =>
      simp only [popcountBelow, BitVec.getLsbD_xor]
      cases a.getLsbD n <;> cases b.getLsbD n <;> simp <;> omega
  have h := mod2 n
  have e : (even (popcountBelow a n) == even (popcountBelow b n)) = true ↔
      (popcountBelow a n % 2 = 0 ↔ popcountBelow b n % 2 = 0) := by
    rw [beq_iff_eq, Bool.eq_iff_iff, even_iff, even_iff]
  rw [Bool.eq_iff_iff, even_iff, e]
  omega

/-- Parity is linear: a check of an exclusive-or agrees when both checks agree. -/
theorem parityBit_xor (a b : Word) (k : Nat) : parityBit (a ^^^ b) k = (parityBit a k == parityBit b k) := by
  have h : (a ^^^ b) &&& parityMask k = (a &&& parityMask k) ^^^ (b &&& parityMask k) := by
    ext i hi
    simp only [BitVec.getElem_and, BitVec.getElem_xor]
    cases a[i] <;> cases b[i] <;> simp
  simp only [parityBit, popcount, h, even_popcountBelow_xor]

/-- The syndrome is linear. -/
theorem syndrome_xor (a b : Word) :
    syndrome (parity (a ^^^ b)) = syndrome (parity a) ^^^ syndrome (parity b) := by
  simp only [syndrome, parity, parityBit_xor]
  generalize parityBit a 0 = a0, parityBit a 1 = a1, parityBit a 2 = a2, parityBit a 3 = a3, parityBit a 4 = a4,
    parityBit b 0 = b0, parityBit b 1 = b1, parityBit b 2 = b2, parityBit b 3 = b3, parityBit b 4 = b4
  cases a0 <;> cases a1 <;> cases a2 <;> cases a3 <;> cases a4 <;> revert b0 b1 b2 b3 b4 <;> decide

theorem overall_xor (a b : Word) : (parity (a ^^^ b)).p5 = ((parity a).p5 == (parity b).p5) := parityBit_xor a b 5

theorem syndrome_oneHot_fin : ∀ p : Fin 32, syndrome (parity (1#32 <<< p.val)) = BitVec.ofNat 5 (p.val + 1) := by
  decide +kernel

/-- The column of position `p`, low five bits: `p + 1`, and 0 for position 31 (R63). -/
theorem syndrome_oneHot {p : Nat} (h : p < 32) : syndrome (parity (1#32 <<< p)) = BitVec.ofNat 5 (p + 1) :=
  syndrome_oneHot_fin ⟨p, h⟩

theorem overall_oneHot_fin : ∀ p : Fin 32, (parity (1#32 <<< p.val)).p5 = false := by decide +kernel

/-- The column of every position has bit 5 set (R63). -/
theorem overall_oneHot {p : Nat} (h : p < 32) : (parity (1#32 <<< p)).p5 = false := overall_oneHot_fin ⟨p, h⟩

/-- CORRECT with a candidate position flips exactly that bit (R102). -/
theorem correct_of_ne (w : Word) {e : BitVec 5} (h : e ≠ 0) : correct w e = w ^^^ (1#32 <<< (e.toNat - 1)) := if_neg h

@[simp] theorem correct_zero (w : Word) : correct w 0 = w := rfl

/-- VERIFY passes exactly on even overall parity and no residual discrepancy (R103). -/
theorem verify_iff (w : Word) : verify w = true ↔ (parity w).p5 = true ∧ syndrome (parity w) = 0 := by
  rw [verify]
  cases (parity w).p5 <;> simp

theorem decodeWord_of_verify {w : Word} (h : verify (corrected w) = true) :
    decodeWord w = some (extract (corrected w)) := by
  rw [decodeWord, if_pos h]

theorem decodeWord_of_not_verify {w : Word} (h : verify (corrected w) = false) : decodeWord w = none := by
  rw [decodeWord, h]
  rfl

/-- `decode_word` answers a payload exactly when the corrected word passes VERIFY, and then the corrected word's (R105). -/
theorem decodeWord_eq_some {w : Word} {d : List Bool} :
    decodeWord w = some d ↔ verify (corrected w) = true ∧ d = extract (corrected w) := by
  rw [decodeWord]
  split_ifs with h <;> simp [h, eq_comm]

theorem parity_zero_iff (w : Word) : syndrome (parity w) = 0 ↔
    (parity w).p0 = true ∧ (parity w).p1 = true ∧ (parity w).p2 = true ∧ (parity w).p3 = true ∧
      (parity w).p4 = true := by
  generalize parity w = pv
  obtain ⟨a, b, c, d, e, f⟩ := pv
  cases a <;> cases b <;> cases c <;> cases d <;> cases e <;> simp [syndrome, discrepancy]

/-- A valid codeword has syndrome 0 and even overall parity, and nothing else has (R107). -/
theorem validCodeword_iff (c : Word) :
    validCodeword c = true ↔ syndrome (parity c) = 0 ∧ (parity c).p5 = true := by
  rw [parity_zero_iff, validCodeword, beq_iff_eq]
  generalize parity c = pv
  obtain ⟨a, b, c, d, e, f⟩ := pv
  simp [and_assoc]

theorem corrected_of_syndrome_zero {w : Word} (h : syndrome (parity w) = 0) : corrected w = w := by
  rw [corrected, h, correct_zero]

@[simp] theorem extract_length (w : Word) : (extract w).length = 26 := by simp [extract, dataPositions]

theorem decodeWord_length {w : Word} {d : List Bool} (h : decodeWord w = some d) : d.length = 26 := by
  obtain ⟨-, rfl⟩ := decodeWord_eq_some.1 h
  simp

end Sys2Proof.Machine
end

