-- ==== Sys2Proof/Laws/Decode.lean ====
section
/-! SUPPORT. Laws of the command fields and of the decoder's parts (spec/30_encoding.md R66 to R68). -/

namespace Sys2Proof

@[simp] theorem cmdOp_cmdWord (op : BitVec 8) (imm : BitVec 32) : cmdOp (cmdWord op imm) = op := by
  simp only [cmdOp, cmdWord]
  exact BitVec.extractLsb'_append_eq_left

@[simp] theorem cmdImm_cmdWord (op : BitVec 8) (imm : BitVec 32) : cmdImm (cmdWord op imm) = imm := by
  simp only [cmdImm, cmdWord]
  exact BitVec.extractLsb'_append_eq_right

/-- A command word is its two fields (R66). -/
theorem cmdWord_fields (w : Cmd) : cmdWord (cmdOp w) (cmdImm w) = w := by
  simp only [cmdOp, cmdImm, cmdWord]
  ext i hi
  simp only [BitVec.getElem_append, BitVec.getElem_extractLsb']
  split_ifs with h
  · simp [BitVec.getLsbD_eq_getElem hi]
  · rw [show 32 + (i - 32) = i by omega, BitVec.getLsbD_eq_getElem hi]

theorem decodePlain_eq_ok {imm : BitVec 32} {i j : Instr} : decodePlain imm i = .ok j ↔ imm = 0 ∧ j = i := by
  rw [decodePlain]
  split_ifs with h
  · simp only [Except.ok.injEq, h, true_and]
    exact eq_comm
  · exact ⟨fun e => (nomatch e), fun e => absurd e.1 h⟩

theorem decodeBpush_eq_ok {imm : BitVec 32} {j : Instr} :
    decodeBpush imm = .ok j ↔ imm.extractLsb' 8 24 = 0 ∧ j = .bpush (imm.extractLsb' 0 8) := by
  rw [decodeBpush]
  split_ifs with h
  · simp only [Except.ok.injEq, h, true_and]
    exact eq_comm
  · exact ⟨fun e => (nomatch e), fun e => absurd e.1 h⟩

theorem decodeRdob_eq_ok {imm : BitVec 32} {j : Instr} :
    decodeRdob imm = .ok j ↔ imm.extractLsb' 9 23 = 0 ∧ j = .rdob (imm.extractLsb' 0 9) := by
  rw [decodeRdob]
  split_ifs with h
  · simp only [Except.ok.injEq, h, true_and]
    exact eq_comm
  · exact ⟨fun e => (nomatch e), fun e => absurd e.1 h⟩

/-- An operand with no bit at or above `n` is its low `n` bits, zero-extended (R68). -/
theorem setWidth_extract_of_high_zero {imm : BitVec 32} {n : Nat} (hn : n ≤ 32)
    (h : imm.extractLsb' n (32 - n) = 0) : (imm.extractLsb' 0 n).setWidth 32 = imm := by
  ext i hi
  rw [BitVec.getElem_setWidth, BitVec.getLsbD_extractLsb']
  by_cases hin : i < n
  · simp [hin, BitVec.getLsbD_eq_getElem hi]
  · have hb : (imm.extractLsb' n (32 - n)).getLsbD (i - n) = false := by simp [h]
    rw [BitVec.getLsbD_extractLsb', show n + (i - n) = i by omega, BitVec.getLsbD_eq_getElem hi] at hb
    have : i - n < 32 - n := by omega
    simp_all

/-- Zero-extending an operand leaves the bits above it 0 (R68). -/
theorem extract_high_setWidth {n : Nat} (b : BitVec n) : (b.setWidth 32).extractLsb' n (32 - n) = 0 := by
  ext i hi
  simp [BitVec.getLsbD_setWidth]

/-- The low bits of a zero-extended operand are the operand (R68). -/
theorem extract_low_setWidth {n : Nat} (b : BitVec n) (hn : n ≤ 32) : (b.setWidth 32).extractLsb' 0 n = b := by
  ext i hi
  simp only [BitVec.getElem_extractLsb', BitVec.getLsbD_setWidth, BitVec.getLsbD_eq_getElem hi, Nat.zero_add,
    Bool.and_eq_right_iff_imp, decide_eq_true_eq]
  intro _
  omega

/-- The number of a command word (R66). -/
theorem cmdWord_toNat (op : BitVec 8) (imm : BitVec 32) :
    (cmdWord op imm).toNat = op.toNat * 2 ^ 32 + imm.toNat := by
  rw [cmdWord, BitVec.toNat_append, ← Nat.shiftLeft_add_eq_or_of_lt imm.isLt, Nat.shiftLeft_eq]

/-- A word with one of the six opcodes without operand is illegal unless `imm` is 0 (R69). -/
theorem decode_plain_illegal {op : BitVec 8} {imm : BitVec 32} (hop : op.toNat ∈ [0, 1, 2, 4, 6, 7]) (h : imm ≠ 0) :
    decode (cmdWord op imm) = .error .mustBeZero := by
  simp only [decode, cmdOp_cmdWord, cmdImm_cmdWord]
  simp only [List.mem_cons, List.not_mem_nil, or_false] at hop
  rcases hop with h' | h' | h' | h' | h' | h' <;> rw [h'] <;> exact if_neg h

/-- Everything the decoder can answer, by opcode (R67, R68). -/
theorem decode_ok_cases {w : Cmd} {i : Instr} (h : decode w = .ok i) :
    (cmdOp w = 0x00 ∧ cmdImm w = 0 ∧ i = .nop) ∨
    (cmdOp w = 0x01 ∧ cmdImm w = 0 ∧ i = .trst) ∨
    (cmdOp w = 0x02 ∧ cmdImm w = 0 ∧ i = .bclr) ∨
    (cmdOp w = 0x03 ∧ (cmdImm w).extractLsb' 8 24 = 0 ∧ i = .bpush ((cmdImm w).extractLsb' 0 8)) ∨
    (cmdOp w = 0x04 ∧ cmdImm w = 0 ∧ i = .pblk) ∨
    (cmdOp w = 0x05 ∧ i = .decw (cmdImm w)) ∨
    (cmdOp w = 0x06 ∧ cmdImm w = 0 ∧ i = .rdst) ∨
    (cmdOp w = 0x07 ∧ cmdImm w = 0 ∧ i = .rdln) ∨
    (cmdOp w = 0x08 ∧ (cmdImm w).extractLsb' 9 23 = 0 ∧ i = .rdob ((cmdImm w).extractLsb' 0 9)) := by
  have key : ∀ n : BitVec 8, (cmdOp w).toNat = n.toNat → cmdOp w = n := fun n => BitVec.eq_of_toNat_eq
  rw [decode] at h
  split at h <;> rename_i hop
  · exact .inl ⟨key 0x00 hop, decodePlain_eq_ok.1 h⟩
  · exact .inr (.inl ⟨key 0x01 hop, decodePlain_eq_ok.1 h⟩)
  · exact .inr (.inr (.inl ⟨key 0x02 hop, decodePlain_eq_ok.1 h⟩))
  · exact .inr (.inr (.inr (.inl ⟨key 0x03 hop, decodeBpush_eq_ok.1 h⟩)))
  · exact .inr (.inr (.inr (.inr (.inl ⟨key 0x04 hop, decodePlain_eq_ok.1 h⟩))))
  · exact .inr (.inr (.inr (.inr (.inr (.inl ⟨key 0x05 hop, (Except.ok.inj h).symm⟩)))))
  · exact .inr (.inr (.inr (.inr (.inr (.inr (.inl ⟨key 0x06 hop, decodePlain_eq_ok.1 h⟩))))))
  · exact .inr (.inr (.inr (.inr (.inr (.inr (.inr (.inl ⟨key 0x07 hop, decodePlain_eq_ok.1 h⟩)))))))
  · exact .inr (.inr (.inr (.inr (.inr (.inr (.inr (.inr ⟨key 0x08 hop, decodeRdob_eq_ok.1 h⟩)))))))
  · cases h

end Sys2Proof
end

