-- ==== Sys2Proof/Laws/Memory.lean ====
section
/-! SUPPORT. Laws of the byte buffers (spec/20_memory.md R40): every operation keeps the canonical form, a read after a write
gives the byte written, and a write leaves every other byte alone. -/

namespace Sys2Proof.Machine.Memory

theorem read_eq_unwritten_of_canonicalFrom {lo i : Nat} {m : Memory} (h : canonicalFrom lo m = true) (hi : i < lo) :
    read m i = unwritten := by
  induction m generalizing lo with
  | nil => rfl
  | cons c m ih =>
    obtain ⟨a, b⟩ := c
    simp only [canonicalFrom, Bool.and_eq_true, decide_eq_true_eq] at h
    rw [read, if_neg (by omega)]
    exact ih h.2 (by omega)

theorem canonicalFrom_mono {lo lo' : Nat} {m : Memory} (h : canonicalFrom lo m = true) (hle : lo' ≤ lo) :
    canonicalFrom lo' m = true := by
  cases m with
  | nil => rfl
  | cons c m =>
    simp only [canonicalFrom, Bool.and_eq_true, decide_eq_true_eq] at h ⊢
    exact ⟨⟨by omega, h.1.2⟩, h.2⟩

theorem canonicalFrom_write {lo i : Nat} {m : Memory} (v : Byte) (h : canonicalFrom lo m = true) (hi : lo ≤ i) :
    canonicalFrom lo (write m i v) = true := by
  induction m generalizing lo with
  | nil =>
    by_cases hv : v = unwritten <;> simp [write, hv, canonicalFrom, hi]
  | cons c m ih =>
    obtain ⟨a, b⟩ := c
    have hc := h
    simp only [canonicalFrom, Bool.and_eq_true, decide_eq_true_eq] at hc
    obtain ⟨⟨hle, hb⟩, hm⟩ := hc
    rw [write]
    by_cases h1 : i < a
    · by_cases hv : v = unwritten
      · simpa [h1, hv] using h
      · have hb' : b ≠ unwritten := by simpa using hb
        simp only [h1, hv, if_true, if_false, canonicalFrom, Bool.and_eq_true, decide_eq_true_eq, bne_iff_ne]
        exact ⟨⟨hi, hv⟩, ⟨by omega, hb'⟩, hm⟩
    · by_cases h2 : i = a
      · subst h2
        by_cases hv : v = unwritten
        · simpa [hv] using canonicalFrom_mono hm (by omega)
        · simp only [lt_irrefl, hv, if_true, if_false, canonicalFrom, Bool.and_eq_true, decide_eq_true_eq,
            bne_iff_ne]
          exact ⟨⟨hi, hv⟩, hm⟩
      · simp only [h1, h2, if_false, canonicalFrom, Bool.and_eq_true, decide_eq_true_eq]
        exact ⟨⟨hle, hb⟩, ih hm (by omega)⟩

/-- A write keeps the canonical form. -/
theorem wf_write {m : Memory} (i : Nat) (v : Byte) (h : m.wf = true) : (m.write i v).wf = true :=
  canonicalFrom_write v h (Nat.zero_le i)

/-- A write at an index the buffer has lists no index the buffer has not. -/
theorem within_write {m : Memory} {size i : Nat} (v : Byte) (h : m.within size = true) (hi : i < size) :
    (m.write i v).within size = true := by
  induction m with
  | nil => by_cases hv : v = unwritten <;> simp [write, hv, within, hi]
  | cons c m ih =>
    obtain ⟨a, b⟩ := c
    simp only [within, List.all_cons, Bool.and_eq_true, decide_eq_true_eq] at h ih ⊢
    rw [write]
    split_ifs
    · simpa using h
    · simpa [hi] using h
    · exact h.2
    · simpa [hi] using h.2
    · simpa [h.1] using ih h.2

/-- A write leaves every other byte alone. -/
theorem read_write_ne (m : Memory) {i j : Nat} (v : Byte) (h : j ≠ i) : (m.write i v).read j = m.read j := by
  induction m with
  | nil => by_cases hv : v = unwritten <;> simp [write, hv, read, h]
  | cons c m ih =>
    obtain ⟨a, b⟩ := c
    rw [write]
    split_ifs with h1 hv h2 hv
    · rfl
    · rw [read, if_neg h]
    · rw [read, if_neg (by omega)]
    · rw [read, if_neg h, read, if_neg (by omega)]
    · simp only [read, ih]

theorem read_write_same_from {lo i : Nat} {m : Memory} (v : Byte) (h : canonicalFrom lo m = true) :
    (m.write i v).read i = v := by
  induction m generalizing lo with
  | nil => by_cases hv : v = unwritten <;> simp [write, hv, read]
  | cons c m ih =>
    obtain ⟨a, b⟩ := c
    simp only [canonicalFrom, Bool.and_eq_true, decide_eq_true_eq] at h
    rw [write]
    split_ifs with h1 hv h2 hv
    · rw [read, if_neg (by omega), hv]
      exact read_eq_unwritten_of_canonicalFrom h.2 (by omega)
    · rw [read, if_pos rfl]
    · subst h2
      rw [hv]
      exact read_eq_unwritten_of_canonicalFrom h.2 (by omega)
    · rw [read, if_pos rfl]
    · rw [read, if_neg h2, ih h.2]

/-- A read after a write to the same index gives the byte written. -/
theorem read_write_same {m : Memory} (i : Nat) (v : Byte) (h : m.wf = true) : (m.write i v).read i = v :=
  read_write_same_from v h

@[simp] theorem readBytes_length (m : Memory) (a n : Nat) : (m.readBytes a n).length = n := by simp [readBytes]

theorem readBytes_getElem (m : Memory) (a n i : Nat) (h : i < (m.readBytes a n).length) :
    (m.readBytes a n)[i] = m.read (a + i) := by
  simp [readBytes]

theorem readBytes_congr {m m' : Memory} {a n : Nat} (h : ∀ i, a ≤ i → i < a + n → m.read i = m'.read i) :
    m.readBytes a n = m'.readBytes a n := by
  unfold readBytes
  refine List.map_congr_left fun j hj => ?_
  exact h _ (by omega) (by have := List.mem_range.1 hj; omega)

/-- `MemWrite` keeps the canonical form. -/
theorem wf_writeBytes {m : Memory} (a : Nat) (v : List Byte) (h : m.wf = true) : (m.writeBytes a v).wf = true := by
  induction v generalizing m a with
  | nil => exact h
  | cons b bs ih => exact ih _ (wf_write _ _ h)

theorem within_writeBytes {m : Memory} {size : Nat} (a : Nat) (v : List Byte) (h : m.within size = true)
    (hv : a + v.length ≤ size) : (m.writeBytes a v).within size = true := by
  induction v generalizing m a with
  | nil => exact h
  | cons b bs ih =>
    simp only [List.length_cons] at hv
    exact ih _ (within_write _ h (by omega)) (by omega)

/-- `MemWrite` leaves every byte outside the written ones alone. -/
theorem read_writeBytes_outside (m : Memory) (a : Nat) (v : List Byte) {i : Nat} (h : i < a ∨ a + v.length ≤ i) :
    (m.writeBytes a v).read i = m.read i := by
  induction v generalizing m a with
  | nil => rfl
  | cons b bs ih =>
    simp only [List.length_cons] at h
    rw [writeBytes, ih _ _ (by omega), read_write_ne _ _ (by omega)]

/-- `MemWrite` stores the bytes in order. -/
theorem read_writeBytes_inside {m : Memory} (a : Nat) (v : List Byte) (hm : m.wf = true) {i : Nat} (h : i < v.length) :
    (m.writeBytes a v).read (a + i) = v[i] := by
  induction v generalizing m a i with
  | nil => simp at h
  | cons b bs ih =>
    cases i with
    | zero =>
      rw [writeBytes, read_writeBytes_outside _ _ _ (by omega)]
      exact read_write_same _ _ hm
    | succ i =>
      have h' : i < bs.length := by simpa using h
      have := ih (a + 1) (wf_write a b hm) h'
      rw [writeBytes, List.getElem_cons_succ, ← this]
      congr 1
      omega

end Sys2Proof.Machine.Memory
end

