-- ==== Sys2Proof/Laws/Params.lean ====
section
/-! SUPPORT. The two buffer sizes as numerals, for arithmetic (spec/00_scope.md R4, spec/20_memory.md R54). -/

namespace Sys2Proof.Config

@[simp] theorem maxBlock_eq : maxBlock = 512 := rfl
@[simp] theorem maxOut_eq : maxOut = 416 := rfl
theorem maxBlock_eq_words : maxBlock = maxWords * wordBytes := rfl

end Sys2Proof.Config
end

