-- ==== Sys2Proof/Laws/PerInstr.lean ====
section
/-! SUPPORT. Per command: its encoding is a word of its own row of spec/opcode_table.json (spec/30_encoding.md R75). -/

/-- The encoding of the command matches the row that bears the command's mnemonic. -/
def Sys2Proof.Laws.EncodeMatchesRow.Statement (i : Sys2Proof.Instr) : Prop :=
  ∃ r ∈ Sys2Proof.opcodeTable, r.mnemonic = Sys2Proof.mnemonicOf i ∧ r.admits (Sys2Proof.encode i) = true

namespace Sys2Proof.Laws.EncodeMatchesRow

theorem nop : Statement .nop := ⟨{ mnemonic := "NOP", value := 0x0000000000, mask := 0xFFFFFFFFFF }, by decide⟩

theorem trst : Statement .trst := ⟨{ mnemonic := "TRST", value := 0x0100000000, mask := 0xFFFFFFFFFF }, by decide⟩

theorem bclr : Statement .bclr := ⟨{ mnemonic := "BCLR", value := 0x0200000000, mask := 0xFFFFFFFFFF }, by decide⟩

theorem bpush (byte : Byte) : Statement (.bpush byte) := by
  refine ⟨{ mnemonic := "BPUSH", value := 0x0300000000, mask := 0xFFFFFFFF00 }, by decide, rfl, ?_⟩
  revert byte
  decide +kernel

theorem pblk : Statement .pblk := ⟨{ mnemonic := "PBLK", value := 0x0400000000, mask := 0xFFFFFFFFFF }, by decide⟩

theorem decw (word : Word) : Statement (.decw word) := by
  refine ⟨{ mnemonic := "DECW", value := 0x0500000000, mask := 0xFF00000000 }, by decide, rfl, ?_⟩
  simp only [OpcodeRow.admits, encode, cmdWord, beq_iff_eq]
  apply BitVec.eq_of_getLsbD_eq
  intro i hi
  rw [BitVec.getLsbD_and, BitVec.getLsbD_append]
  have low : ∀ j < 32, (0xFF00000000#40).getLsbD j = false ∧ (0x0500000000#40).getLsbD j = false := by decide
  have high : ∀ j < 40, 32 ≤ j →
      ((0x05#8).getLsbD (j - 32) && (0xFF00000000#40).getLsbD j) = (0x0500000000#40).getLsbD j := by decide
  split_ifs with h
  · show (word.getLsbD i && (0xFF00000000#40).getLsbD i) = (0x0500000000#40).getLsbD i
    rw [(low i h).1, (low i h).2, Bool.and_false]
  · exact high i hi (by omega)

theorem rdst : Statement .rdst := ⟨{ mnemonic := "RDST", value := 0x0600000000, mask := 0xFFFFFFFFFF }, by decide⟩

theorem rdln : Statement .rdln := ⟨{ mnemonic := "RDLN", value := 0x0700000000, mask := 0xFFFFFFFFFF }, by decide⟩

theorem rdob (idx : BitVec 9) : Statement (.rdob idx) := by
  refine ⟨{ mnemonic := "RDOB", value := 0x0800000000, mask := 0xFFFFFFFE00 }, by decide, rfl, ?_⟩
  revert idx
  decide +kernel

end Sys2Proof.Laws.EncodeMatchesRow
end

