-- ==== Sys2Proof/Laws/Reassembler.lean ====
section
/-! SUPPORT. Laws of the block reassembler (spec/41_reassembler.md): how many bytes and bits come out, and that the words of a
block are taken one after the other. -/

namespace Sys2Proof.Machine

@[simp] theorem cutBytes_bytes_length (t : List Bool) : (cutBytes t).1.length = t.length / 8 := by simp [cutBytes]

@[simp] theorem cutBytes_rest_length (t : List Bool) : (cutBytes t).2.length = t.length % 8 := by
  simp only [cutBytes, List.length_drop]
  omega

theorem appendWord_bytes_length (lo s : List Bool) : (appendWord lo s).1.length = (lo.length + s.length) / 8 := by
  simp [appendWord]

theorem appendWord_rest_length (lo s : List Bool) : (appendWord lo s).2.length = (lo.length + s.length) % 8 := by
  simp [appendWord]

theorem appendWord_rest_length_le (lo s : List Bool) : (appendWord lo s).2.length ≤ 7 := by
  rw [appendWord_rest_length]
  omega

@[simp] theorem processWords_nil (lo : List Bool) : processWords [] lo = .decoded [] lo := rfl

theorem processWords_cons_none {w : Word} (ws : List Word) (lo : List Bool) (h : decodeWord w = none) :
    processWords (w :: ws) lo = .uncorrectable := by
  simp [processWords, h]

theorem processWords_cons_some {w : Word} (ws : List Word) (lo : List Bool) {s : List Bool} (h : decodeWord w = some s) :
    processWords (w :: ws) lo = (processWords ws (appendWord lo s).2).prepend (appendWord lo s).1 := by
  simp [processWords, h]

theorem prepend_eq_decoded {bytes out : List Byte} {lo : List Bool} {r : BlockResult} :
    r.prepend bytes = .decoded out lo ↔ ∃ out', r = .decoded out' lo ∧ out = bytes ++ out' := by
  cases r with
  | decoded o l =>
    simp only [BlockResult.prepend, BlockResult.decoded.injEq]
    constructor
    · rintro ⟨rfl, rfl⟩
      exact ⟨o, ⟨rfl, rfl⟩, rfl⟩
    · rintro ⟨out', ⟨rfl, rfl⟩, rfl⟩
      exact ⟨rfl, rfl⟩
  | uncorrectable => simp [BlockResult.prepend]
  | notDefined => simp [BlockResult.prepend]

theorem prepend_ne_notDefined {bytes : List Byte} {r : BlockResult} (h : r ≠ .notDefined) :
    r.prepend bytes ≠ .notDefined := by
  cases r <;> simp_all [BlockResult.prepend]

/-- The loop over the words always answers. -/
theorem processWords_ne_notDefined (ws : List Word) (lo : List Bool) : processWords ws lo ≠ .notDefined := by
  induction ws generalizing lo with
  | nil => simp
  | cons w ws ih =>
    cases h : decodeWord w with
    | none => simp [processWords_cons_none ws lo h]
    | some s =>
      rw [processWords_cons_some ws lo h]
      exact prepend_ne_notDefined (ih _)

theorem wordsOfBytes_length (blk : List Byte) : (wordsOfBytes blk).length = blk.length / 4 := by
  fun_induction wordsOfBytes blk with
  | case1 b0 b1 b2 b3 rest ih =>
    simp only [List.length_cons, ih]
    omega
  | case2 t h =>
    match t, h with
    | [], _ => rfl
    | [_], _ => simp
    | [_, _], _ => simp
    | [_, _, _], _ => simp
    | a :: b :: c :: d :: r, h => exact absurd rfl (h a b c d r)

theorem processBlock_of_defined {blk : List Byte} (lo : List Bool) (h4 : blk.length % 4 = 0)
    (h512 : blk.length ≤ Config.maxBlock) : processBlock blk lo = processWords (wordsOfBytes blk) lo := by
  rw [processBlock, if_pos ⟨h4, h512⟩]

theorem processBlock_eq_notDefined (blk : List Byte) (lo : List Bool) :
    processBlock blk lo = .notDefined ↔ ¬(blk.length % 4 = 0 ∧ blk.length ≤ Config.maxBlock) := by
  rw [processBlock]
  split_ifs with h
  · simp [h, processWords_ne_notDefined]
  · simp [h]

end Sys2Proof.Machine
end

