-- ==== Sys2Proof/Laws/Rsp.lean ====
section
/-! SUPPORT. Laws of responses, the status word and the fault record (spec/30_encoding.md R70 to R74, spec/10_state.md R27). -/

namespace Sys2Proof.Machine

@[simp] theorem rflt_okRsp (v : BitVec 32) : rflt (okRsp v) = false := by
  simp only [rflt, okRsp, BitVec.getLsbD_append]
  simp

@[simp] theorem rdata_okRsp (v : BitVec 32) : rdata (okRsp v) = v := by
  simp only [rdata, okRsp]
  exact BitVec.extractLsb'_append_eq_right

@[simp] theorem rflt_faultRsp (c : BitVec 3) : rflt (faultRsp c) = true := by
  simp only [rflt, faultRsp, BitVec.getLsbD_append]
  simp

@[simp] theorem rdata_faultRsp (c : BitVec 3) : rdata (faultRsp c) = c.setWidth 32 := by
  simp only [rdata, faultRsp]
  exact BitVec.extractLsb'_append_eq_right

theorem okRsp_ne_faultRsp (v : BitVec 32) (c : BitVec 3) : okRsp v ≠ faultRsp c := by
  intro h
  have := congrArg rflt h
  simp at this

theorem code_ne_zero (f : InterfaceFault) : f.code ≠ 0 := by cases f <;> decide

theorem code_le_four (f : InterfaceFault) : f.code.toNat ≤ 4 := by cases f <;> decide

theorem code_injective {f g : InterfaceFault} (h : f.code = g.code) : f = g := by
  cases f <;> cases g <;> first | rfl | exact absurd h (by decide)

theorem recordFault_of_ne {old : BitVec 3} (code : BitVec 3) (h : old ≠ 0) : recordFault old code = old := if_neg h

@[simp] theorem recordFault_zero (code : BitVec 3) : recordFault 0 code = code := rfl

theorem recordFault_le_four {old : BitVec 3} (f : InterfaceFault) (h : old.toNat ≤ 4) :
    (recordFault old f.code).toNat ≤ 4 := by
  rw [recordFault]
  split_ifs
  · exact code_le_four f
  · exact h

end Sys2Proof.Machine
end

