-- ==== Sys2Proof/Laws/State.lean ====
section
/-! SUPPORT. One lemma per field per update of the state, and the laws of the register form of the Leftover Bits
(spec/10_state.md R22). -/

namespace Sys2Proof.Machine

/-! ### A response -/

@[simp] theorem answer_loCnt (s : State) (r : Rsp) : (s.answer r).loCnt = s.loCnt := rfl
@[simp] theorem answer_loReg (s : State) (r : Rsp) : (s.answer r).loReg = s.loReg := rfl
@[simp] theorem answer_ibuf (s : State) (r : Rsp) : (s.answer r).ibuf = s.ibuf := rfl
@[simp] theorem answer_ilen (s : State) (r : Rsp) : (s.answer r).ilen = s.ilen := rfl
@[simp] theorem answer_obuf (s : State) (r : Rsp) : (s.answer r).obuf = s.obuf := rfl
@[simp] theorem answer_olen (s : State) (r : Rsp) : (s.answer r).olen = s.olen := rfl
@[simp] theorem answer_unc (s : State) (r : Rsp) : (s.answer r).unc = s.unc := rfl
@[simp] theorem answer_fcode (s : State) (r : Rsp) : (s.answer r).fcode = s.fcode := rfl
@[simp] theorem answer_inputs (s : State) (r : Rsp) : (s.answer r).inputs = s.inputs := rfl
@[simp] theorem answer_rsps (s : State) (r : Rsp) : (s.answer r).rsps = s.rsps ++ [r] := rfl

/-! ### An interface fault -/

@[simp] theorem afterFault_loCnt (s : State) (f : InterfaceFault) : (s.afterFault f).loCnt = s.loCnt := rfl
@[simp] theorem afterFault_loReg (s : State) (f : InterfaceFault) : (s.afterFault f).loReg = s.loReg := rfl
@[simp] theorem afterFault_ibuf (s : State) (f : InterfaceFault) : (s.afterFault f).ibuf = s.ibuf := rfl
@[simp] theorem afterFault_ilen (s : State) (f : InterfaceFault) : (s.afterFault f).ilen = s.ilen := rfl
@[simp] theorem afterFault_obuf (s : State) (f : InterfaceFault) : (s.afterFault f).obuf = s.obuf := rfl
@[simp] theorem afterFault_olen (s : State) (f : InterfaceFault) : (s.afterFault f).olen = s.olen := rfl
@[simp] theorem afterFault_unc (s : State) (f : InterfaceFault) : (s.afterFault f).unc = s.unc := rfl
@[simp] theorem afterFault_inputs (s : State) (f : InterfaceFault) : (s.afterFault f).inputs = s.inputs := rfl
@[simp] theorem afterFault_fcode (s : State) (f : InterfaceFault) :
    (s.afterFault f).fcode = recordFault s.fcode f.code := rfl
@[simp] theorem afterFault_rsps (s : State) (f : InterfaceFault) :
    (s.afterFault f).rsps = s.rsps ++ [faultRsp f.code] := rfl

/-! ### The carry -/

@[simp] theorem setLo_loCnt (s : State) (lo : List Bool) : (s.setLo lo).loCnt = BitVec.ofNat 3 lo.length := rfl
@[simp] theorem setLo_loReg (s : State) (lo : List Bool) : (s.setLo lo).loReg = BitVec.ofNat 7 (natOfBits lo) := rfl
@[simp] theorem setLo_ibuf (s : State) (lo : List Bool) : (s.setLo lo).ibuf = s.ibuf := rfl
@[simp] theorem setLo_ilen (s : State) (lo : List Bool) : (s.setLo lo).ilen = s.ilen := rfl
@[simp] theorem setLo_obuf (s : State) (lo : List Bool) : (s.setLo lo).obuf = s.obuf := rfl
@[simp] theorem setLo_olen (s : State) (lo : List Bool) : (s.setLo lo).olen = s.olen := rfl
@[simp] theorem setLo_unc (s : State) (lo : List Bool) : (s.setLo lo).unc = s.unc := rfl
@[simp] theorem setLo_fcode (s : State) (lo : List Bool) : (s.setLo lo).fcode = s.fcode := rfl
@[simp] theorem setLo_inputs (s : State) (lo : List Bool) : (s.setLo lo).inputs = s.inputs := rfl
@[simp] theorem setLo_rsps (s : State) (lo : List Bool) : (s.setLo lo).rsps = s.rsps := rfl

@[simp] theorem lo_length (s : State) : s.lo.length = s.loCnt.toNat := bitsOfNat_length _ _

theorem lo_length_le (s : State) : s.lo.length ≤ 7 := by
  have := s.loCnt.isLt
  rw [lo_length]
  omega

theorem setLo_loCnt_toNat (s : State) {lo : List Bool} (h : lo.length ≤ 7) :
    (s.setLo lo).loCnt.toNat = lo.length := by
  rw [setLo_loCnt, BitVec.toNat_ofNat, Nat.mod_eq_of_lt (by omega)]

theorem setLo_loReg_toNat (s : State) {lo : List Bool} (h : lo.length ≤ 7) :
    (s.setLo lo).loReg.toNat = natOfBits lo := by
  have h1 := natOfBits_lt lo
  have h2 : 2 ^ lo.length ≤ 2 ^ 7 := Nat.pow_le_pow_right (by omega) h
  rw [setLo_loReg, BitVec.toNat_ofNat, Nat.mod_eq_of_lt (by omega)]

/-- Leftover Bits read back as they were stored (R22). -/
theorem lo_setLo (s : State) {lo : List Bool} (h : lo.length ≤ 7) : (s.setLo lo).lo = lo := by
  rw [State.lo, setLo_loCnt_toNat s h, setLo_loReg_toNat s h, bitsOfNat_natOfBits_self]

/-- A carry stored from a sequence is canonical (R22). -/
theorem setLo_canonical (s : State) {lo : List Bool} (h : lo.length ≤ 7) :
    (s.setLo lo).loReg.toNat < 2 ^ (s.setLo lo).loCnt.toNat := by
  rw [setLo_loCnt_toNat s h, setLo_loReg_toNat s h]
  exact natOfBits_lt lo

/-- The integer form of the Leftover Bits of a canonical carry is `LO_REG` (R22). -/
theorem natOfBits_lo (s : State) (h : s.loReg.toNat < 2 ^ s.loCnt.toNat) : natOfBits s.lo = s.loReg.toNat := by
  rw [State.lo, natOfBits_bitsOfNat, Nat.mod_eq_of_lt h]

/-! ### `PBLK`'s two outcomes -/

@[simp] theorem commitBlock_loCnt (s : State) (o : List Byte) (lo : List Bool) :
    (s.commitBlock o lo).loCnt = BitVec.ofNat 3 lo.length := rfl
@[simp] theorem commitBlock_loReg (s : State) (o : List Byte) (lo : List Bool) :
    (s.commitBlock o lo).loReg = BitVec.ofNat 7 (natOfBits lo) := rfl
@[simp] theorem commitBlock_ibuf (s : State) (o : List Byte) (lo : List Bool) :
    (s.commitBlock o lo).ibuf = s.ibuf := rfl
@[simp] theorem commitBlock_ilen (s : State) (o : List Byte) (lo : List Bool) : (s.commitBlock o lo).ilen = 0 := rfl
@[simp] theorem commitBlock_obuf (s : State) (o : List Byte) (lo : List Bool) :
    (s.commitBlock o lo).obuf = s.obuf.writeBytes 0 o := rfl
@[simp] theorem commitBlock_olen (s : State) (o : List Byte) (lo : List Bool) :
    (s.commitBlock o lo).olen = BitVec.ofNat 9 o.length := rfl
@[simp] theorem commitBlock_unc (s : State) (o : List Byte) (lo : List Bool) :
    (s.commitBlock o lo).unc = false := rfl
@[simp] theorem commitBlock_fcode (s : State) (o : List Byte) (lo : List Bool) :
    (s.commitBlock o lo).fcode = s.fcode := rfl
@[simp] theorem commitBlock_inputs (s : State) (o : List Byte) (lo : List Bool) :
    (s.commitBlock o lo).inputs = s.inputs := rfl
@[simp] theorem commitBlock_rsps (s : State) (o : List Byte) (lo : List Bool) :
    (s.commitBlock o lo).rsps = s.rsps := rfl

@[simp] theorem rejectBlock_loCnt (s : State) : s.rejectBlock.loCnt = s.loCnt := rfl
@[simp] theorem rejectBlock_loReg (s : State) : s.rejectBlock.loReg = s.loReg := rfl
@[simp] theorem rejectBlock_ibuf (s : State) : s.rejectBlock.ibuf = s.ibuf := rfl
@[simp] theorem rejectBlock_ilen (s : State) : s.rejectBlock.ilen = 0 := rfl
@[simp] theorem rejectBlock_obuf (s : State) : s.rejectBlock.obuf = s.obuf := rfl
@[simp] theorem rejectBlock_olen (s : State) : s.rejectBlock.olen = 0 := rfl
@[simp] theorem rejectBlock_unc (s : State) : s.rejectBlock.unc = true := rfl
@[simp] theorem rejectBlock_fcode (s : State) : s.rejectBlock.fcode = s.fcode := rfl
@[simp] theorem rejectBlock_inputs (s : State) : s.rejectBlock.inputs = s.inputs := rfl
@[simp] theorem rejectBlock_rsps (s : State) : s.rejectBlock.rsps = s.rsps := rfl

/-! ### The hardware reset and the port -/

@[simp] theorem hardwareReset_loCnt (s : State) : (hardwareReset s).loCnt = 0 := rfl
@[simp] theorem hardwareReset_loReg (s : State) : (hardwareReset s).loReg = 0 := rfl
@[simp] theorem hardwareReset_ibuf (s : State) : (hardwareReset s).ibuf = [] := rfl
@[simp] theorem hardwareReset_ilen (s : State) : (hardwareReset s).ilen = 0 := rfl
@[simp] theorem hardwareReset_obuf (s : State) : (hardwareReset s).obuf = [] := rfl
@[simp] theorem hardwareReset_olen (s : State) : (hardwareReset s).olen = 0 := rfl
@[simp] theorem hardwareReset_unc (s : State) : (hardwareReset s).unc = false := rfl
@[simp] theorem hardwareReset_fcode (s : State) : (hardwareReset s).fcode = 0 := rfl
@[simp] theorem hardwareReset_inputs (s : State) : (hardwareReset s).inputs = s.inputs := rfl
@[simp] theorem hardwareReset_rsps (s : State) : (hardwareReset s).rsps = s.rsps := rfl

@[simp] theorem issue_inputs (s : State) (w : Cmd) : (s.issue w).inputs = .command w :: s.inputs := rfl
@[simp] theorem takeInput_issue (s : State) (w : Cmd) : takeInput (s.issue w) = .command w s := rfl

end Sys2Proof.Machine
end

