-- ==== Sys2Proof/Laws/Step.lean ====
section
/-! SUPPORT. What a command can do, once per meaning and once for `exec` and `step`: later proofs cite these and unfold no
meaning (spec/42_commands.md R140 to R150). -/

namespace Sys2Proof.Machine

/-- Everything `BPUSH` can end in (R144). -/
theorem execBpush_cases (byte : Byte) (s : State) :
    (s.ilen.toNat = 512 ∧ execBpush byte s = .next (s.afterFault .ibufOverflow)) ∨
    (s.ilen.toNat < 512 ∧ execBpush byte s = respond 0
      { s with ibuf := s.ibuf.write s.ilen.toNat byte, ilen := s.ilen + 1 }) ∨
    (512 < s.ilen.toNat ∧ execBpush byte s = .fault .outsideBuffer) := by
  simp only [execBpush, Config.maxBlock_eq]
  rcases Nat.lt_trichotomy s.ilen.toNat 512 with h | h | h
  · exact .inr (.inl ⟨h, by rw [if_neg (by omega), if_pos h]⟩)
  · exact .inl ⟨h, by rw [if_pos h]; rfl⟩
  · exact .inr (.inr ⟨h, by rw [if_neg (by omega), if_neg (by omega)]⟩)

/-- Everything `RDOB` can end in (R149). -/
theorem execRdob_cases (idx : BitVec 9) (s : State) :
    (s.olen.toNat ≤ idx.toNat ∧ execRdob idx s = .next (s.afterFault .badIndex)) ∨
    (idx.toNat < s.olen.toNat ∧ idx.toNat < 416 ∧ execRdob idx s = respond (byteData (s.obuf.read idx.toNat)) s) ∨
    (416 < s.olen.toNat ∧ execRdob idx s = .fault .outsideBuffer) := by
  have e : execRdob idx s = if s.olen.toNat ≤ idx.toNat then raiseFault .badIndex s
      else if idx.toNat < 416 then respond (byteData (s.obuf.read idx.toNat)) s else .fault .outsideBuffer := rfl
  rw [e]
  by_cases h : s.olen.toNat ≤ idx.toNat
  · exact .inl ⟨h, by rw [if_pos h]; rfl⟩
  · by_cases h' : idx.toNat < 416
    · exact .inr (.inl ⟨by omega, h', by rw [if_neg h, if_pos h']⟩)
    · exact .inr (.inr ⟨by omega, by rw [if_neg h, if_neg h']⟩)

/-- The block `PBLK` presents to `process_block`: `IBUF[0..ILEN)` (R145). -/
abbrev State.loaded (s : State) : List Byte := s.ibuf.readBytes 0 s.ilen.toNat

/-- Everything `PBLK` can end in (R145). -/
theorem execPblk_cases (s : State) :
    (s.ilen.toNat % 4 ≠ 0 ∧ execPblk s = .next (s.afterFault .badLength)) ∨
    (s.ilen.toNat % 4 = 0 ∧ s.ilen.toNat ≤ 512 ∧ processBlock s.loaded s.lo = .uncorrectable ∧
      execPblk s = respond uncorrectableData s.rejectBlock) ∨
    (∃ out lo, s.ilen.toNat % 4 = 0 ∧ s.ilen.toNat ≤ 512 ∧ processBlock s.loaded s.lo = .decoded out lo ∧
      execPblk s = respond (BitVec.ofNat 32 out.length) (s.commitBlock out lo)) ∨
    (s.ilen.toNat % 4 = 0 ∧ 512 < s.ilen.toNat ∧ execPblk s = .fault .blockNotDefined) := by
  by_cases h4 : s.ilen.toNat % 4 = 0
  · have e : execPblk s = match processBlock s.loaded s.lo with
        | .uncorrectable => respond uncorrectableData s.rejectBlock
        | .decoded out lo => respond (BitVec.ofNat 32 out.length) (s.commitBlock out lo)
        | .notDefined => .fault .blockNotDefined := by
      rw [execPblk]
      exact if_neg (by omega)
    have hd := processBlock_eq_notDefined s.loaded s.lo
    simp only [State.loaded, Memory.readBytes_length, h4, true_and] at hd
    rw [e]
    cases hr : processBlock s.loaded s.lo with
    | uncorrectable =>
      rw [hr] at hd
      simp only [reduceCtorEq, not_le, false_iff, not_lt] at hd
      exact .inr (.inl ⟨h4, hd, rfl, rfl⟩)
    | decoded out lo =>
      rw [hr] at hd
      simp only [reduceCtorEq, not_le, false_iff, not_lt] at hd
      exact .inr (.inr (.inl ⟨out, lo, h4, hd, rfl, rfl⟩))
    | notDefined =>
      exact .inr (.inr (.inr ⟨h4, by simpa using hd.1 hr, rfl⟩))
  · exact .inl ⟨h4, by rw [execPblk, if_pos h4]; rfl⟩

/-- Everything a command can leave: a response and nothing else, an interface fault, or one of the five effects of R150. -/
theorem exec_next_cases {i : Instr} {s t : State} (h : exec i s = .next t) :
    (∃ v, t = s.answer (okRsp v)) ∨
    (∃ f, t = s.afterFault f) ∨
    (i = .trst ∧ t = State.answer { s with loCnt := 0, loReg := 0, ilen := 0, olen := 0, unc := false } (okRsp 0)) ∨
    (i = .bclr ∧ t = State.answer { s with ilen := 0 } (okRsp 0)) ∨
    (∃ byte, i = .bpush byte ∧ s.ilen.toNat < 512 ∧
      t = State.answer { s with ibuf := s.ibuf.write s.ilen.toNat byte, ilen := s.ilen + 1 } (okRsp 0)) ∨
    (i = .pblk ∧ s.ilen.toNat % 4 = 0 ∧ s.ilen.toNat ≤ 512 ∧ processBlock s.loaded s.lo = .uncorrectable ∧
      t = s.rejectBlock.answer (okRsp uncorrectableData)) ∨
    (∃ out lo, i = .pblk ∧ s.ilen.toNat % 4 = 0 ∧ s.ilen.toNat ≤ 512 ∧ processBlock s.loaded s.lo = .decoded out lo ∧
      t = (s.commitBlock out lo).answer (okRsp (BitVec.ofNat 32 out.length))) := by
  cases i with
  | nop => exact .inl ⟨0, by cases h; rfl⟩
  | trst => exact .inr (.inr (.inl ⟨rfl, by cases h; rfl⟩))
  | bclr => exact .inr (.inr (.inr (.inl ⟨rfl, by cases h; rfl⟩)))
  | bpush byte =>
    obtain ⟨-, e⟩ | ⟨hlt, e⟩ | ⟨-, e⟩ := execBpush_cases byte s <;> simp only [exec, e] at h <;> cases h
    · exact .inr (.inl ⟨_, rfl⟩)
    · exact .inr (.inr (.inr (.inr (.inl ⟨byte, rfl, hlt, rfl⟩))))
  | pblk =>
    obtain ⟨-, e⟩ | ⟨h4, hle, hr, e⟩ | ⟨out, lo, h4, hle, hr, e⟩ | ⟨-, -, e⟩ := execPblk_cases s <;>
      simp only [exec, e] at h <;> cases h
    · exact .inr (.inl ⟨_, rfl⟩)
    · exact .inr (.inr (.inr (.inr (.inr (.inl ⟨rfl, h4, hle, hr, rfl⟩)))))
    · exact .inr (.inr (.inr (.inr (.inr (.inr ⟨out, lo, rfl, h4, hle, hr, rfl⟩)))))
  | decw word => exact .inl ⟨_, by cases h; rfl⟩
  | rdst => exact .inl ⟨_, by cases h; rfl⟩
  | rdln => exact .inl ⟨_, by cases h; rfl⟩
  | rdob idx =>
    obtain ⟨-, e⟩ | ⟨-, -, e⟩ | ⟨-, e⟩ := execRdob_cases idx s <;> simp only [exec, e] at h <;> cases h
    · exact .inr (.inl ⟨_, rfl⟩)
    · exact .inl ⟨_, rfl⟩

/-- A step with a command at the port performs it in the state with the port advanced. -/
theorem step_of_command {s : State} {w : Cmd} {rest : List Input} (h : s.inputs = .command w :: rest) :
    step s = perform w { s with inputs := rest } := by
  simp [step, takeInput, h]

@[simp] theorem step_issue (s : State) (w : Cmd) : step (s.issue w) = perform w s := rfl

theorem perform_of_ok {w : Cmd} {i : Instr} (s : State) (h : decode w = .ok i) : perform w s = exec i s := by
  simp [perform, h]

theorem perform_of_error {w : Cmd} {e : DecodeError} (s : State) (h : decode w = .error e) :
    perform w s = .next (s.afterFault .illegalCmd) := by
  simp [perform, h, illegalCommand, raiseFault]

/-- Everything a step can do: wait, reset, perform a command, or refuse an illegal word. -/
theorem step_cases (s : State) :
    (s.inputs = [] ∧ step s = .next s) ∨
    (∃ rest, s.inputs = .hardwareReset :: rest ∧ step s = .next (hardwareReset { s with inputs := rest })) ∨
    (∃ w rest i, s.inputs = .command w :: rest ∧ decode w = .ok i ∧ step s = exec i { s with inputs := rest }) ∨
    (∃ w rest e, s.inputs = .command w :: rest ∧ decode w = .error e ∧
      step s = .next (State.afterFault { s with inputs := rest } .illegalCmd)) := by
  cases h : s.inputs with
  | nil => exact .inl ⟨rfl, by simp [step, takeInput, h]⟩
  | cons x rest =>
    cases x with
    | hardwareReset => exact .inr (.inl ⟨rest, rfl, by simp [step, takeInput, h]⟩)
    | command w =>
      cases hd : decode w with
      | ok i =>
        exact .inr (.inr (.inl ⟨w, rest, i, rfl, hd, by rw [step_of_command h, perform_of_ok _ hd]⟩))
      | error e =>
        exact .inr (.inr (.inr ⟨w, rest, e, rfl, hd, by rw [step_of_command h, perform_of_error _ hd]⟩))

end Sys2Proof.Machine
end

