-- ==== Sys2Proof/Tests/Slice0.lean ====
section
/-! SUPPORT. The model's own tests. Expected values come from spec/95_test_vectors.md (T<n>) and from the examples of the
command rules; each test names its source. The second half shows, for every statement with hypotheses, concrete values that
meet them. -/

namespace Sys2Proof.Tests

open Sys2Proof Sys2Proof.Machine

/-! ### Helpers -/

/-- What a field of the state is after a command. -/
def after {α : Type} (i : Instr) (s : State) (f : State → α) : Option α := (nextState? (exec i s)).map f

/-- What a field of the state is after a step that performs a command word. -/
def afterWord {α : Type} (w : Cmd) (s : State) (f : State → α) : Option α := (nextState? (step (s.issue w))).map f

/-- The last response: `rflt` and `rdata`. -/
def lastRsp (s : State) : Option (Bool × BitVec 32) := s.rsps.getLast?.map (fun r => (rflt r, rdata r))

/-- One clean word loaded (T44). -/
def loaded : State := { State.reset with ibuf := [(0, 0xD5), (1, 0x55), (2, 0x2A), (3, 0xD2)], ilen := 4 }

/-- After T44: three bytes to read, two Leftover Bits. -/
def decodedState : State :=
  { State.reset with obuf := [(0, 0xAA), (1, 0xAA), (2, 0xAA)], olen := 3, loCnt := 2, loReg := 2 }

/-- After T44, with the double error of T46 loaded. -/
def badLoaded : State := { decodedState with ibuf := [(3, 0x14)], ilen := 4 }

/-- Three bytes loaded (T47). -/
def oddLoaded : State := { State.reset with ibuf := [(0, 0x11), (1, 0x22), (2, 0x33)], ilen := 3 }

/-- A full input buffer. -/
def fullLoaded : State := { State.reset with ilen := 512 }

/-- One free byte in the input buffer. -/
def almostFull : State := { State.reset with ilen := 511 }

/-! ### WellFormed: an ill-formed command for each check (R68, R69) -/

theorem test_wf_nop : (commandOf 0x0000000000).wellFormed = true := by decide
theorem test_wf_refuses_nop_imm : (commandOf 0x0000000001).wellFormed = false := by decide
theorem test_wf_refuses_trst_imm : (commandOf 0x0180000000).wellFormed = false := by decide
theorem test_wf_refuses_bclr_imm : (commandOf 0x0200010000).wellFormed = false := by decide
theorem test_wf_refuses_bpush_bit8 : (commandOf 0x0300000100).wellFormed = false := by decide
theorem test_wf_accepts_bpush_ff : (commandOf 0x03000000FF).wellFormed = true := by decide
theorem test_wf_refuses_pblk_imm : (commandOf 0x0400000001).wellFormed = false := by decide
theorem test_wf_accepts_decw_all_ones : (commandOf 0x05FFFFFFFF).wellFormed = true := by decide
theorem test_wf_refuses_rdst_imm : (commandOf 0x0600000080).wellFormed = false := by decide
theorem test_wf_refuses_rdln_imm : (commandOf 0x0700000001).wellFormed = false := by decide
theorem test_wf_refuses_rdob_bit9 : (commandOf 0x0800000200).wellFormed = false := by decide
theorem test_wf_accepts_rdob_511 : (commandOf 0x08000001FF).wellFormed = true := by decide
theorem test_wf_refuses_op_09 : (commandOf 0x0900000000).wellFormed = false := by decide
theorem test_wf_refuses_op_ff : (commandOf 0xFF00000000).wellFormed = false := by decide

/-! ### Decoding: words written out bit by bit from R66 to R68 -/

theorem test_decode_nop : decode 0b00000000_00000000000000000000000000000000 = .ok .nop := by decide
theorem test_decode_trst : decode 0b00000001_00000000000000000000000000000000 = .ok .trst := by decide
theorem test_decode_bclr : decode 0b00000010_00000000000000000000000000000000 = .ok .bclr := by decide
/-- `BPUSH 0xD5` is `0x03000000D5` (R144). -/
theorem test_decode_bpush : decode 0b00000011_000000000000000000000000_11010101 = .ok (.bpush 0xD5) := by decide
theorem test_decode_pblk : decode 0b00000100_00000000000000000000000000000000 = .ok .pblk := by decide
/-- `DECW 0x80000003` is `0x0580000003` (R146). -/
theorem test_decode_decw : decode 0b00000101_10000000000000000000000000000011 = .ok (.decw 0x80000003) := by decide
theorem test_decode_rdst : decode 0b00000110_00000000000000000000000000000000 = .ok .rdst := by decide
theorem test_decode_rdln : decode 0b00000111_00000000000000000000000000000000 = .ok .rdln := by decide
/-- `RDOB 300` is `0x080000012C` (R149). -/
theorem test_decode_rdob : decode 0b00001000_00000000000000000000000_100101100 = .ok (.rdob 300) := by decide
theorem test_decode_refuses_reserved : decode 0x0900000000 = .error .reservedOpcode := by decide
theorem test_decode_refuses_must_be_zero : decode 0x0800000200 = .error .mustBeZero := by decide
theorem test_encode_rdob : encode (.rdob 300) = 0x080000012C := by decide
theorem test_decodeTableWord : decodeTableWord 40 0x03000000D5 = some (.bpush 0xD5) := by decide
theorem test_decodeTableWord_refuses : decodeTableWord 40 0xFF00000000 = none := by decide

/-! ### One step -/

/-- T40. -/
theorem test_nop : after .nop decodedState (fun t => { t with rsps := [] }) = some decodedState ∧
    after .nop decodedState lastRsp = some (some (false, 0)) := by decide
/-- T40: an illegal word. -/
theorem test_illegal : afterWord 0x0000000001 State.reset (fun t => (lastRsp t, t.fcode)) =
    some (some (true, 1), 1) := by decide
/-- T41. -/
theorem test_trst : after .trst { badLoaded with loCnt := 4, loReg := 5, ilen := 8, olen := 6, unc := true, fcode := 2 }
    (fun t => (t.loCnt, t.loReg, t.ilen, t.olen, t.unc, t.fcode)) = some (0, 0, 0, 0, false, 2) := by decide
/-- T43. -/
theorem test_bclr : after .bclr { decodedState with ilen := 7 } (fun t => (t.ilen, t.olen, t.loReg, lastRsp t)) =
    some (0, 3, 2, some (false, 0)) := by decide
/-- T42. -/
theorem test_bpush : after (.bpush 0xD5) State.reset (fun t => (t.ibuf.read 0, t.ilen, lastRsp t)) =
    some (0xD5, 1, some (false, 0)) := by decide
/-- T42: the last byte fits, the next faults. -/
theorem test_bpush_full : after (.bpush 0xFF) almostFull (fun t => (t.ilen, t.ibuf.read 511)) = some (512, 0xFF) ∧
    after (.bpush 0) fullLoaded (fun t => (t.ilen, t.fcode, lastRsp t)) = some (512, 3, some (true, 3)) := by decide
/-- T44. -/
theorem test_pblk : after .pblk loaded (fun t => { t with ibuf := [], rsps := [] }) = some decodedState ∧
    after .pblk loaded lastRsp = some (some (false, 3)) := by decide +kernel
/-- T46, T47. -/
theorem test_pblk_ends : after .pblk badLoaded (fun t => (t.unc, t.olen, t.ilen)) = some (true, 0, 0) ∧
    after .pblk badLoaded (fun t => (t.loCnt, t.loReg, lastRsp t)) = some (2, 2, some (false, 0x80000000)) ∧
    after .pblk oddLoaded (fun t => (t.ilen, t.fcode, lastRsp t)) = some (3, 2, some (true, 2)) := by decide +kernel
/-- T48. -/
theorem test_decw : after (.decw 0xD5552AD2) State.reset lastRsp = some (some (false, 0x02AAAAAA)) ∧
    after (.decw 0x80000003) State.reset lastRsp = some (some (false, 1)) := by decide +kernel
/-- T48: the lone error at position 31, and the miscorrected triple of T17. -/
theorem test_decw_corners : after (.decw 0x80000000) State.reset lastRsp = some (some (false, 0x80000000)) ∧
    after (.decw 0x00000114) State.reset lastRsp = some (some (false, 0x00000413)) := by decide +kernel
/-- T49. -/
theorem test_rdst : after .rdst { State.reset with unc := true, fcode := 4, loCnt := 6, loReg := 0b0101010 } lastRsp =
    some (some (false, 0xC000062A)) := by decide
/-- T49. -/
theorem test_rdst_after_block : after .rdst decodedState lastRsp = some (some (false, 0x00000202)) := by decide
/-- T50. -/
theorem test_rdln : after .rdln { fullLoaded with olen := 416 } lastRsp = some (some (false, 0x020001A0)) := by decide
/-- T51. -/
theorem test_rdob : after (.rdob 2) decodedState lastRsp = some (some (false, 0xAA)) ∧
    after (.rdob 3) decodedState (fun t => (lastRsp t, t.fcode)) = some (some (true, 4), 4) := by decide
/-- R205: a later fault answers with its own code and leaves `FCODE`. -/
theorem test_rdob_second_fault : after (.rdob 511) { decodedState with fcode := 2 } (fun t => (lastRsp t, t.fcode)) =
    some (some (true, 4), 2) := by decide
/-- R230, R231: the hardware reset clears `FCODE`. -/
theorem test_hardware_reset : (nextState? (step { badLoaded with inputs := [.hardwareReset], fcode := 4 })) =
    some State.reset := by decide
/-- `withFetchWord` makes the next step run the command. -/
theorem test_withFetchWord : (nextState? (step (State.reset.withFetchWord 40 0x0600000000))).map lastRsp =
    some (some (false, 0)) := by decide

/-! ### The codec and the reassembler -/

/-- T12. -/
theorem test_syndrome : [0x80000003, 0x00000014, 0x80000000, 0x40000000, 0x00008000, 0x00000114].map
    (fun w => syndrome (parity w)) = [3, 6, 0, 31, 16, 15] := by decide +kernel
/-- T12: `PARITY(0x80000003) = FFTTTF`. -/
theorem test_parity : parity 0x80000003 =
    { p0 := false, p1 := false, p2 := true, p3 := true, p4 := true, p5 := false } := by decide +kernel
/-- T13, T14. -/
theorem test_corrected : [0x00000008, 0x80000003, 0xFFFF7FFF, 0xBFFFFFFF].map corrected =
    [0x00000000, 0x80000007, 0xFFFFFFFF, 0xFFFFFFFF] := by decide +kernel
/-- T15, T16, T18: Uncorrectable. -/
theorem test_uncorrectable : ([0x00000014, 0x80008000, 0x15552AD2, 0x7FFFFFFF, 0x00000007].map decodeWord).all
    Option.isNone = true := by decide +kernel
/-- T21. -/
theorem test_extract : extract 0x40000000 = true :: List.replicate 25 false ∧
    extract 0x8000808F = List.replicate 25 false ++ [true] := by decide
/-- T21: where single positions go. -/
theorem test_payload : [1#32 <<< 16, 1#32 <<< 14, 1#32 <<< 8, 1#32 <<< 6, 1#32 <<< 4].map payload =
    [1#26 <<< 11, 1#26 <<< 10, 1#26 <<< 4, 1#26 <<< 3, 1#26 <<< 1] := by decide
/-- T22. -/
theorem test_referenceEncode : [0x3FFFFFF, 0x0000001, 0x2000000, 0x2AAAAAA, 0x0000413, 0x12195B1].map referenceEncode =
    [0xFFFFFFFF, 0x80000007, 0x4000808B, 0xD5552AD2, 0x00004114, 0x2432DB86] := by decide +kernel
/-- T30: 5 and 6 Leftover Bits. -/
theorem test_appendWord : appendWord (bitsOfNat 31 5) (bitsOfNat 0x2AAAAAA 26) = ([0xFD, 0x55, 0x55], bitsOfNat 42 7) ∧
    appendWord (bitsOfNat 63 6) (bitsOfNat 0x2AAAAAA 26) = ([0xFE, 0xAA, 0xAA, 0xAA], []) := by decide +kernel
/-- T30, in integer form. -/
theorem test_appendWordInt : appendWordInt 7 0x7F 0x2AAAAAA = ([0xFF, 0x55, 0x55, 0x55], 1, 0) := by decide
/-- T31. -/
theorem test_processWords : processWords [0xD5552AD2, 0x2AAAD52D, 0x80000007] [] =
    .decoded [0xAA, 0xAA, 0xAA, 0x95, 0x55, 0x55, 0x50, 0x00, 0x00] (bitsOfNat 1 6) := by decide +kernel
/-- T32: "Hello, world!". -/
theorem test_processBlock : processBlock
    [0x24, 0x32, 0xDB, 0x86, 0xD8, 0xDE, 0xAC, 0x99, 0x83, 0xBB, 0x3D, 0x63, 0x4D, 0x8C, 0xC2, 0x84] [] =
    .decoded [0x48, 0x65, 0x6C, 0x6C, 0x6F, 0x2C, 0x20, 0x77, 0x6F, 0x72, 0x6C, 0x64, 0x21] [] := by decide +kernel

/-! ### The assembler and the host -/

/-- R77: the expansion of `BLOCK`, as program P1 shows it. -/
theorem test_block : assembleLine "BLOCK 0xD5552AD2 ; one word".toList =
    some [.bclr, .bpush 0xD5, .bpush 0x55, .bpush 0x2A, .bpush 0xD2, .pblk] := by decide +kernel
/-- R76: decimal and hexadecimal operands, and an operand out of range. -/
theorem test_operands : assembleLine "  RDOB 300".toList = some [.rdob 300] ∧
    assembleLine "BPUSH 0x100".toList = none := by decide +kernel
/-- R76: the encoding as ten digits. -/
theorem test_showEncoding : showEncoding (.rdob 300) = "0x080000012C".toList := by decide +kernel

/-- A host at the start of a transfer. -/
def host : HostState := { block := State.reset, sink := [], sent := [], status := .running }

/-- T9: the data packet, its acknowledgment, and the end of the transfer (R169). T11 gives the payload 1. -/
theorem test_host_data : ((onPacket [0, 3, 0, 7, 0x80, 0, 0, 7] host).sink, (onPacket [0, 3, 0, 7, 0x80, 0, 0, 7] host).sent,
    (onPacket [0, 3, 0, 7, 0x80, 0, 0, 7] host).status) = ([0, 0, 0], [[0, 4, 0, 7]], .complete) := by decide +kernel
/-- T8. -/
theorem test_host_error : (onPacket [0, 5, 0, 1, 0x46, 0x69] host).status = .failed (.protocolError 1 [0x46, 0x69]) := by
  decide

/-! ### Witnesses: for each statement with hypotheses, values that meet them all

Each name is `witness_` and the statement, with the clause where it has several. -/

theorem witness_EncodeOfDecodeIsTheWord : decode 0x08000001FF = .ok (.rdob 511) := by decide

theorem witness_DecoderAgreesWithTheOpcodeTable :
    { mnemonic := "DECW", value := 0x0500000000, mask := 0xFF00000000 } ∈ opcodeTable ∧
    (opcodeTable.map (fun r => r.admits 0x0500000001)) = [false, false, false, false, false, true, false, false, false] ∧
    (∀ r ∈ opcodeTable, r.admits 0x0300000100 = false) := by decide

theorem witness_IllegalWordsRaiseIllegalCmd_reserved :
    (State.reset.issue 0x0900000000).inputs = [.command 0x0900000000] ∧ 9 ≤ (cmdOp 0x0900000000).toNat ∧
    decode 0x0900000000 = .error .reservedOpcode ∧ decode 0xFFFFFFFFFF = .error .reservedOpcode := by decide

theorem witness_IllegalWordsRaiseIllegalCmd_mustBeZero :
    decode 0x0700000001 = .error .mustBeZero ∧ decode 0x0380000000 = .error .mustBeZero ∧
    decode 0x0300000100 = .error .mustBeZero ∧ decode 0x0800000200 = .error .mustBeZero := by decide

theorem witness_IllegalWordsRaiseIllegalCmd_legal : ¬∃ e, decode 0x08000001FF = .error e := by
  rintro ⟨e, h⟩
  cases h

theorem witness_StepRunsTheDecodedCommand :
    (State.reset.issue 0x03000000D5).inputs = [.command 0x03000000D5] ∧ decode 0x03000000D5 = .ok (.bpush 0xD5) ∧
    decode 0xFF00000000 = .error .reservedOpcode := by decide

theorem witness_WithNothingIssuedTheBlockWaits : decodedState.inputs = [] := rfl

theorem witness_HardwareResetLeavesTheResetValues :
    ({ badLoaded with inputs := [.hardwareReset], fcode := 4 } : State).inputs = [.hardwareReset] := rfl

theorem witness_HardwareResetLeavesTheResetValues_fcode :
    ∃ t, step { badLoaded with inputs := [.hardwareReset], fcode := 4 } = .next t ∧ (4 : BitVec 3) ≠ 0 ∧ t.fcode = 0 :=
  ⟨_, rfl, by decide, rfl⟩

/-- `imm` of the commands without operand, lowest and highest bit: for `NopRespondsZeroAndChangesNothing`,
`TrstClearsTheTransfer`, `BclrEmptiesTheInputBuffer`, `PblkProcessesTheLoadedBlock`, `RdstRespondsWithTheStatusWord` and
`RdlnRespondsWithTheLengthWord`. -/
theorem witness_imm_not_zero : (1 : BitVec 32) ≠ 0 ∧ (0x80000000 : BitVec 32) ≠ 0 := by decide

theorem witness_BpushAppendsAByte_imm :
    (0x00000100 : BitVec 32).extractLsb' 8 24 ≠ 0 ∧ (0x80000000 : BitVec 32).extractLsb' 8 24 ≠ 0 := by decide

theorem witness_BpushAppendsAByte_room : almostFull.Inv ∧ almostFull.ilen.toNat < 512 ∧ loaded.Inv ∧ loaded.ilen.toNat < 512 := by
  decide

theorem witness_BpushAppendsAByte_full : fullLoaded.Inv ∧ fullLoaded.ilen.toNat = 512 := by decide

theorem witness_PblkProcessesTheLoadedBlock_badLength : oddLoaded.Inv ∧ oddLoaded.ilen.toNat % 4 ≠ 0 := by decide

theorem witness_PblkProcessesTheLoadedBlock_uncorrectable : badLoaded.Inv ∧ badLoaded.ilen.toNat % 4 = 0 ∧
    processBlock (badLoaded.ibuf.readBytes 0 badLoaded.ilen.toNat) badLoaded.lo = .uncorrectable := by decide +kernel

theorem witness_PblkProcessesTheLoadedBlock_decoded : loaded.Inv ∧ loaded.ilen.toNat % 4 = 0 ∧
    processBlock (loaded.ibuf.readBytes 0 loaded.ilen.toNat) loaded.lo = .decoded [0xAA, 0xAA, 0xAA] [true, false] := by
  decide +kernel

/-- T45: the empty block. -/
theorem witness_PblkProcessesTheLoadedBlock_empty : decodedState.Inv ∧ decodedState.ilen.toNat % 4 = 0 ∧
    processBlock (decodedState.ibuf.readBytes 0 decodedState.ilen.toNat) decodedState.lo = .decoded [] [true, false] := by
  decide

/-- The full block of 128 zero words: every word decodes. -/
theorem witness_PblkProcessesTheLoadedBlock_full : fullLoaded.Inv ∧ fullLoaded.ilen.toNat = 512 ∧
    after .pblk fullLoaded (fun t => (t.unc, t.olen)) = some (false, 416) := by decide +kernel

theorem witness_PblkProcessesTheLoadedBlock_ilenZero : decodedState.Inv ∧ decodedState.ilen = 0 := by decide

theorem witness_DecwRespondsWithThePayload : decodeWord 0x00000014 = none ∧
    decodeWord 0x80000003 = some (List.replicate 25 false ++ [true]) := by decide +kernel

theorem witness_RdobReadsADecodedByte_imm :
    (0x00000200 : BitVec 32).extractLsb' 9 23 ≠ 0 ∧ (0x80000000 : BitVec 32).extractLsb' 9 23 ≠ 0 := by decide

theorem witness_RdobReadsADecodedByte_last : decodedState.Inv ∧ (2 : BitVec 9).toNat < decodedState.olen.toNat := by decide

theorem witness_RdobReadsADecodedByte_beyond : decodedState.Inv ∧ decodedState.olen.toNat ≤ (3 : BitVec 9).toNat := by decide

theorem witness_RdobReadsADecodedByte_416 :
    ({ State.reset with olen := 416 } : State).Inv ∧ 416 ≤ (416 : BitVec 9).toNat ∧
    (415 : BitVec 9).toNat < ({ State.reset with olen := 416 } : State).olen.toNat := by decide

theorem witness_EachFieldChangesOnlyByItsWriters_trst :
    ∃ t, exec .trst { badLoaded with unc := true } = .next t ∧ t.loCnt ≠ 2 ∧ t.loReg ≠ 2 ∧ t.ilen ≠ 4 ∧ t.olen ≠ 3 ∧
      t.unc ≠ true :=
  ⟨_, rfl, by decide⟩

theorem witness_EachFieldChangesOnlyByItsWriters_bpush :
    ∃ t, exec (.bpush 0xD5) State.reset = .next t ∧ t.ibuf ≠ State.reset.ibuf ∧ t.ilen ≠ State.reset.ilen :=
  ⟨_, rfl, by decide⟩

theorem witness_EachFieldChangesOnlyByItsWriters_pblk :
    after .pblk loaded (fun t => (t.loCnt != loaded.loCnt, t.loReg != loaded.loReg, t.obuf != loaded.obuf)) =
      some (true, true, true) ∧
    after .pblk loaded (fun t => (t.olen != loaded.olen, t.ilen != loaded.ilen)) = some (true, true) ∧
    after .pblk badLoaded (fun t => t.unc != badLoaded.unc) = some true := by decide +kernel

theorem witness_EachFieldChangesOnlyByItsWriters_fcode :
    ∃ t, exec .pblk oddLoaded = .next t ∧ t.fcode ≠ oddLoaded.fcode := ⟨_, rfl, by decide⟩

theorem witness_BytesOutsideTheStoreReadAsBefore_bpush :
    ∃ t, exec (.bpush 0xD5) almostFull = .next t ∧ ¬(almostFull.ilen.toNat < 512 ∧ 510 = almostFull.ilen.toNat) :=
  ⟨_, rfl, by decide⟩

theorem witness_BytesOutsideTheStoreReadAsBefore_bpush_full :
    ∃ t, exec (.bpush 0xD5) fullLoaded = .next t ∧ ¬(fullLoaded.ilen.toNat < 512 ∧ 512 = fullLoaded.ilen.toNat) :=
  ⟨_, rfl, by decide⟩

theorem witness_BytesOutsideTheStoreReadAsBefore_pblk : (nextState? (exec .pblk loaded)).isSome = true ∧
    loaded.ilen.toNat % 4 = 0 ∧ [0xAA, 0xAA, 0xAA].length ≤ 3 ∧
    processBlock (loaded.ibuf.readBytes 0 loaded.ilen.toNat) loaded.lo = .decoded [0xAA, 0xAA, 0xAA] [true, false] := by
  decide +kernel

/-- For `EveryCommandCompletesWithOneResponse`, `TheMachineNeverStops`, `OnlyABrokenCheckFaults` and the invariants. -/
theorem witness_Inv : loaded.Inv ∧ badLoaded.Inv ∧ decodedState.Inv ∧ oddLoaded.Inv ∧ fullLoaded.Inv ∧
    ({ State.reset with olen := 416, loCnt := 7, loReg := 127, fcode := 4 } : State).Inv := by decide

theorem witness_AFaultWritesOnlyFcode :
    (oddLoaded.issue 0x0400000000).inputs = [.command 0x0400000000] ∧
    ∃ t, step (oddLoaded.issue 0x0400000000) = .next t ∧ t.rsps = oddLoaded.rsps ++ [faultRsp 2] ∧
      rflt (faultRsp 2) = true :=
  ⟨rfl, _, rfl, rfl, by decide⟩

theorem witness_EachFaultHasItsCause :
    (oddLoaded.issue 0x0400000000).Inv ∧ (oddLoaded.issue 0x0400000000).inputs = [.command 0x0400000000] ∧
    afterWord 0x0900000000 oddLoaded lastRsp = some (some (true, 1)) ∧
    afterWord 0x0400000000 oddLoaded lastRsp = some (some (true, 2)) ∧
    afterWord 0x0300000000 fullLoaded lastRsp = some (some (true, 3)) ∧
    afterWord 0x0800000003 decodedState lastRsp = some (some (true, 4)) := by decide

theorem witness_FcodeIsStickyAndFirstWins :
    ∃ t, step ({ oddLoaded with fcode := 4 }.issue 0x0400000000) = .next t ∧ ({ oddLoaded with fcode := 4 } : State).fcode ≠ 0 ∧
      ∀ rest, ({ oddLoaded with fcode := 4 }.issue 0x0400000000).inputs ≠ .hardwareReset :: rest :=
  ⟨_, rfl, by decide, fun _ h => by cases h⟩

theorem witness_OnlyABrokenCheckFaults :
    almostFull.Admits (.bpush 0) ∧ ¬fullLoaded.Admits (.bpush 0) ∧ loaded.Admits .pblk ∧ ¬oddLoaded.Admits .pblk ∧
    decodedState.Admits (.rdob 2) ∧ ¬decodedState.Admits (.rdob 3) := by decide

theorem witness_ReadsHaveNoSideEffect : decodedState.Inv ∧ decodedState.Admits .rdst ∧ decodedState.Admits .rdln ∧
    decodedState.Admits (.decw 0x80000003) ∧ decodedState.Admits (.rdob 2) := by decide

theorem witness_TheCarryChangesOnlyBySuccessOrReset_reset :
    ∃ t, step { decodedState with inputs := [.hardwareReset] } = .next t ∧ t.loCnt ≠ 2 := ⟨_, rfl, by decide⟩

theorem witness_TheCarryChangesOnlyBySuccessOrReset_trst :
    ∃ t, step (decodedState.issue 0x0100000000) = .next t ∧ t.loReg ≠ 2 := ⟨_, rfl, by decide⟩

theorem witness_TheCarryChangesOnlyBySuccessOrReset_pblk :
    afterWord 0x0400000000 loaded (fun t => t.loCnt != loaded.loCnt) = some true := by decide +kernel

/-- The hypotheses are `k < 6` and `p < 32`. -/
theorem witness_ParityCountsTheCoverageSet : 0 < 6 ∧ 5 < 6 ∧ 31 < 32 := by decide

theorem witness_SyndromeIsTheExclusiveOrOfPositions : 4 < 5 := by decide

theorem witness_CorrectFlipsOnePosition : 31 < 32 ∧ (31 : BitVec 5) ≠ 0 := by decide

/-- T21: two words that differ at check positions only. -/
theorem witness_ExtractTakesTheNonCheckPositions : ∀ p < 32, p ∉ Config.checkPositions →
    (0x00000004#32).getLsbD p = (0x8000808F#32).getLsbD p := by decide

/-- T11, T12, T16, T15: one word for each case. -/
theorem witness_TheFourCasesOfAReceivedWord :
    (syndrome (parity 0xD5552AD2) = 0 ∧ (parity 0xD5552AD2).p5 = true) ∧
    (syndrome (parity 0x80000003) ≠ 0 ∧ (parity 0x80000003).p5 = false) ∧
    (syndrome (parity 0x00000007) = 0 ∧ (parity 0x00000007).p5 = false) ∧
    (syndrome (parity 0x00000014) ≠ 0 ∧ (parity 0x00000014).p5 = true) := by decide +kernel

theorem witness_SingleErrorsAreCorrectedButForPosition31 : validCodeword 0xD5552AD2 = true ∧ 30 < 31 := by decide +kernel

theorem witness_DoubleErrorsAreUncorrectable : validCodeword 0xD5552AD2 = true ∧ 0 < 32 ∧ 31 < 32 ∧ 0 ≠ 31 := by
  decide +kernel

/-- T16, T17: positions 0, 1, 2 and positions 2, 4, 8. -/
theorem witness_TripleErrorsMiscorrectUnlessTheyCancel : validCodeword 0xD5552AD2 = true ∧
    BitVec.ofNat 5 3 ^^^ BitVec.ofNat 5 2 ^^^ BitVec.ofNat 5 1 = 0 ∧
    BitVec.ofNat 5 9 ^^^ BitVec.ofNat 5 5 ^^^ BitVec.ofNat 5 3 ≠ 0 := by decide +kernel

theorem witness_TheReferenceEncoderGivesTheOneCodeword : validCodeword 0xD5552AD2 = true ∧ payload 0xD5552AD2 = 0x2AAAAAA := by
  decide +kernel

theorem witness_WordsAreBigEndian : 4 * 127 + 4 ≤ 512 ∧ 4 * 0 + 4 ≤ 4 := by decide

theorem witness_AppendWordKeepsEveryBitInOrder : (bitsOfNat 127 7).length ≤ 7 ∧ (extract 0xD5552AD2).length = 26 := by decide

theorem witness_AppendWordIntegerFormAgrees : 7 ≤ 7 ∧ 127 < 2 ^ 7 ∧ 0x3FFFFFF < 2 ^ 26 := by decide

theorem witness_BytesOfABlockAreTheWholeStreamCutOnce :
    processWords [0xD5552AD2, 0x2AAAD52D] [] = .decoded [0xAA, 0xAA, 0xAA, 0x95, 0x55, 0x55] (bitsOfNat 5 4) ∧
    ([] : List Bool).length ≤ 7 := by decide +kernel

/-- T36: the bad word stands in the middle. -/
theorem witness_OneBadWordAbortsTheBlock : badLoaded.Inv ∧ badLoaded.ilen.toNat % 4 = 0 ∧
    wordsOfBytes (badLoaded.ibuf.readBytes 0 badLoaded.ilen.toNat) = [0x00000014] ∧ decodeWord 0x00000014 = none ∧
    processWords [0xD5552AD2, 0x00000014, 0x2AAAD52D] [true, false] = .uncorrectable := by decide +kernel

/-- T37: a full block, from a carry of 2 bits. -/
theorem witness_OutputBounds :
    (List.flatten (List.replicate 128 [0xD5, 0x55, 0x2A, 0xD2] : List (List Byte))).length = 512 ∧
    processBlock (List.flatten (List.replicate 128 [0xD5, 0x55, 0x2A, 0xD2])) [true, false] =
      .decoded (List.replicate 416 0xAA) [true, false] := by decide +kernel

theorem witness_PushingABlockAndProcessingItIsProcessBlock :
    let s : State := { decodedState with inputs := commandInputs ([0xD5, 0x55, 0x2A, 0xD2].map .bpush ++ [.pblk]) ++ [.hardwareReset] }
    s.Inv ∧ s.ilen = 0 ∧ ([0xD5, 0x55, 0x2A, 0xD2] : List Byte).length ≤ 512 ∧
      ([0xD5, 0x55, 0x2A, 0xD2] : List Byte).length % 4 = 0 := by decide

theorem witness_TheBlockPseudoInstructionProcessesItsWords :
    ({ oddLoaded with inputs := commandInputs (blockProgram [0xD5552AD2, 0x00000014]) ++ [] } : State).Inv ∧
    ([0xD5552AD2, 0x00000014] : List Word).length ≤ 128 := by decide

theorem witness_TheHostLoopHandlesADataPacket : host.block.Inv ∧ host.status = .running ∧
    processBlock [0x00, 0x00, 0x00, 0x14] host.block.lo = .uncorrectable ∧
    processBlock [0x80, 0x00, 0x00, 0x07] host.block.lo = .decoded [0, 0, 0] [false, true] := by decide +kernel

/-- The largest payload, 512 bytes, in the packet of 516 bytes: all words zero, and with a bad last word. -/
theorem witness_TheHostLoopHandlesADataPacket_512 :
    (List.replicate 512 (0 : Byte)).length = 512 ∧
    processBlock (List.replicate 512 0) host.block.lo = .decoded (List.replicate 416 0) [] ∧
    (List.replicate 511 (0 : Byte) ++ [0x03]).length = 512 ∧
    processBlock (List.replicate 511 0 ++ [0x03]) host.block.lo = .uncorrectable := by decide +kernel

/-- A length that is not a multiple of 4, and the first lengths over 512. -/
theorem witness_TheHostLoopHandlesADataPacket_malformed : (List.replicate 511 (0 : Byte)).length % 4 ≠ 0 ∧
    512 < (List.replicate 513 (0 : Byte)).length ∧ 512 < (List.replicate 516 (0 : Byte)).length := by decide +kernel

theorem witness_AProtocolErrorIsFatal : host.status = .running := rfl

theorem witness_EveryStepKeepsTheInvariants : (oddLoaded.issue 0x0400000000).Inv ∧
    ∃ t, step (oddLoaded.issue 0x0400000000) = .next t := ⟨by decide, _, rfl⟩

theorem witness_EveryStepKeepsTheCarryEven : (decodedState.issue 0x0400000000).CarryEven ∧
    (nextState? (step (decodedState.issue 0x0400000000))).isSome = true := by decide

/-- Two states that differ in a byte at `ILEN` and in a byte at `OLEN`. -/
theorem witness_UnreadableBytesHaveNoInfluence :
    let s := decodedState.issue 0x03000000D5
    let s' : State := { s with ibuf := [(0, 0x77)], obuf := decodedState.obuf ++ [(3, 0x99)] }
    s.Inv ∧ s'.Inv ∧ State.SameVisible s s' ∧ ∃ t, step s = .next t :=
  ⟨by decide, by decide, ⟨rfl, rfl, rfl, rfl, rfl, rfl, rfl, rfl, by decide, by decide⟩, _, rfl⟩

end Sys2Proof.Tests
end

section
/-! The words of a block held in a buffer (20_memory.md R41). -/
namespace Sys2Proof.Machine

/-- Each position of a word lies in one of its four bytes, the last byte lowest. -/
theorem wordOfBytes_getLsbD (b0 b1 b2 b3 : Byte) (i : Nat) :
    (wordOfBytes b0 b1 b2 b3).getLsbD i =
      if i < 8 then b3.getLsbD i else if i < 16 then b2.getLsbD (i - 8)
      else if i < 24 then b1.getLsbD (i - 16) else b0.getLsbD (i - 24) := by
  have h16 : i - 8 < 8 ↔ i < 16 := by omega
  have h24 : i - 8 - 8 < 8 ↔ i < 24 := by omega
  simp only [wordOfBytes, BitVec.getLsbD_append, h16, h24]
  simp only [Nat.sub_sub, Nat.reduceAdd]

/-- The join as shifts: at each position only the byte that lies there reaches it, for a byte shifted further up has not begun
and one shifted less has ended. -/
theorem wordOfBytes_eq_shifts (b0 b1 b2 b3 : Byte) :
    wordOfBytes b0 b1 b2 b3 =
      (b0.setWidth 32 <<< 24) ||| (b1.setWidth 32 <<< 16) ||| (b2.setWidth 32 <<< 8) ||| b3.setWidth 32 := by
  refine BitVec.eq_of_getLsbD_eq fun i hi => ?_
  have ended (b : Byte) (k : Nat) (hk : 8 ≤ k) : b.getLsbD k = false := BitVec.getLsbD_of_ge b k hk
  rw [wordOfBytes_getLsbD]
  simp only [BitVec.getLsbD_or, BitVec.getLsbD_shiftLeft, BitVec.getLsbD_setWidth]
  split_ifs with h8 h16 h24
  · simp [hi, h8, show i < 16 by omega, show i < 24 by omega]
  · simp [hi, h8, h16, show i < 24 by omega, ended b3 i (by omega), show i - 8 < 32 by omega]
  · simp [hi, h8, h16, h24, ended b3 i (by omega), ended b2 (i - 8) (by omega), show i - 16 < 32 by omega]
  · simp [hi, h8, h16, h24, ended b3 i (by omega), ended b2 (i - 8) (by omega), ended b1 (i - 16) (by omega),
      show i - 24 < 32 by omega]

/-- Word `j` of a block is made of its bytes `4j` to `4j + 3`: each word takes four bytes off the front. -/
theorem wordsOfBytes_getElem? (blk : List Byte) (j : Nat) (h : 4 * j + 4 ≤ blk.length) :
    (wordsOfBytes blk)[j]? = some (wordOfBytes blk[4 * j] blk[4 * j + 1] blk[4 * j + 2] blk[4 * j + 3]) := by
  fun_induction wordsOfBytes blk generalizing j with
  | case1 b0 b1 b2 b3 rest ih =>
    cases j with
    | zero => rfl
    | succ j =>
      have hj : 4 * j + 4 ≤ rest.length := by simpa [Nat.mul_succ] using h
      rw [List.getElem?_cons_succ, ih j hj]
      rfl
  | case2 blk hshort =>
    match blk, hshort, h with
    | b0 :: b1 :: b2 :: b3 :: rest, hshort, _ => exact absurd rfl (hshort b0 b1 b2 b3 rest)

/-- The words of the bytes of a buffer, through the buffer's own reads. -/
theorem wordsOfBytes_readBytes_getElem? (m : Memory) (n j : Nat) (h : 4 * j + 4 ≤ n) :
    (wordsOfBytes (m.readBytes 0 n))[j]? =
      some (wordOfBytes (m.read (4 * j)) (m.read (4 * j + 1)) (m.read (4 * j + 2)) (m.read (4 * j + 3))) := by
  rw [wordsOfBytes_getElem? _ _ (by simpa using h)]
  simp only [Memory.readBytes_getElem, Nat.zero_add]

/-- Settles O40: word `j` is the join of its four bytes, and the join is big-endian. -/
theorem wordsAreBigEndian : Obligations.WordsAreBigEndian := by
  intro m n j h
  exact ⟨_, wordsOfBytes_readBytes_getElem? m n j h, wordOfBytes_eq_shifts .., wordOfBytes_getLsbD .., wordOfBytes_getLsbD ..⟩

end Sys2Proof.Machine
end

section
/-! The illegal command words (30_encoding.md R68, R69). -/
namespace Sys2Proof

/-- A decode that makes one check refuses exactly when the check fails. -/
theorem checked_refuses_iff {P : Prop} [Decidable P] (i : Instr) (e : DecodeError) :
    (∃ e', (if P then Except.ok i else .error e) = .error e') ↔ ¬P := by
  split_ifs with h <;> simp [h]

theorem decodePlain_refuses_iff (imm : BitVec 32) (i : Instr) : (∃ e, decodePlain imm i = .error e) ↔ imm ≠ 0 :=
  checked_refuses_iff _ _

theorem decodeBpush_refuses_iff (imm : BitVec 32) :
    (∃ e, decodeBpush imm = .error e) ↔ imm.extractLsb' 8 24 ≠ 0 :=
  checked_refuses_iff _ _

theorem decodeRdob_refuses_iff (imm : BitVec 32) :
    (∃ e, decodeRdob imm = .error e) ↔ imm.extractLsb' 9 23 ≠ 0 :=
  checked_refuses_iff _ _

/-- The opcode alone selects which must-be-zero check a word meets: R68's four operand forms, or a reserved opcode. -/
theorem decode_forms (w : Cmd) :
    (9 ≤ (cmdOp w).toNat ∧ decode w = .error .reservedOpcode) ∨
    ((cmdOp w).toNat ∈ [0, 1, 2, 4, 6, 7] ∧ ∃ i, decode w = decodePlain (cmdImm w) i) ∨
    ((cmdOp w).toNat = 3 ∧ decode w = decodeBpush (cmdImm w)) ∨
    ((cmdOp w).toNat = 5 ∧ decode w = .ok (.decw (cmdImm w))) ∨
    ((cmdOp w).toNat = 8 ∧ decode w = decodeRdob (cmdImm w)) := by
  rw [decode]
  split <;> rename_i hop
  · exact .inr (.inl ⟨by simp [hop], _, rfl⟩)
  · exact .inr (.inl ⟨by simp [hop], _, rfl⟩)
  · exact .inr (.inl ⟨by simp [hop], _, rfl⟩)
  · exact .inr (.inr (.inl ⟨hop, rfl⟩))
  · exact .inr (.inl ⟨by simp [hop], _, rfl⟩)
  · exact .inr (.inr (.inr (.inl ⟨hop, rfl⟩)))
  · exact .inr (.inl ⟨by simp [hop], _, rfl⟩)
  · exact .inr (.inl ⟨by simp [hop], _, rfl⟩)
  · exact .inr (.inr (.inr (.inr ⟨hop, rfl⟩)))
  · refine .inl ⟨?_, rfl⟩
    simp only [imp_false] at *
    omega

/-- The decoder refuses exactly the words R69 calls illegal. -/
theorem decode_refuses_iff (w : Cmd) :
    (9 ≤ (cmdOp w).toNat ∨
      ((cmdOp w).toNat ∈ [0, 1, 2, 4, 6, 7] ∧ cmdImm w ≠ 0) ∨
      ((cmdOp w).toNat = 3 ∧ (cmdImm w).extractLsb' 8 24 ≠ 0) ∨
      ((cmdOp w).toNat = 8 ∧ (cmdImm w).extractLsb' 9 23 ≠ 0)) ↔ ∃ e, decode w = .error e := by
  obtain ⟨hop, hd⟩ | ⟨hop, i, hd⟩ | ⟨hop, hd⟩ | ⟨hop, hd⟩ | ⟨hop, hd⟩ := decode_forms w
  · simp [hd, hop]
  · have : (cmdOp w).toNat < 9 ∧ (cmdOp w).toNat ≠ 3 ∧ (cmdOp w).toNat ≠ 8 := by
      simp only [List.mem_cons, List.not_mem_nil, or_false] at hop
      omega
    simp [hd, hop, this, decodePlain_refuses_iff]
  · simp [hd, hop, decodeBpush_refuses_iff]
  · simp [hd, hop]
  · simp [hd, hop, decodeRdob_refuses_iff]

end Sys2Proof

namespace Sys2Proof.Machine

/-- Settles O5: the decoder's refusals are R69's list, and the step on a refused word is the one fault operation. -/
theorem illegalWordsRaiseIllegalCmd : Obligations.IllegalWordsRaiseIllegalCmd := by
  intro w s rest h
  refine ⟨decode_refuses_iff w, fun ⟨e, he⟩ => ?_⟩
  rw [step_of_command h, perform_of_error _ he]
  rfl

end Sys2Proof.Machine
end

section
/-! The coverage sets and PARITY (30_encoding.md R62, 40_codec.md R100). -/
namespace Sys2Proof.Machine

/-- The masks are the coverage sets (R62). -/
theorem parityMask_getLsbD : ∀ k < 6, ∀ p < 32, (parityMask k).getLsbD p = inCoverage k p := by decide

theorem popcountBelow_eq_countP (v : Word) (n : Nat) : popcountBelow v n = (List.range n).countP v.getLsbD := by
  induction n with
  | zero => rfl
  | succ n ih => cases h : v.getLsbD n <;> simp [popcountBelow, List.range_succ, ih, h]

/-- The ones under a mask are the ones of the word at the positions of its coverage set. -/
theorem popcount_and_parityMask (w : Word) {k : Nat} (hk : k < 6) :
    popcount (w &&& parityMask k) = (List.range 32).countP (fun p => inCoverage k p && w.getLsbD p) := by
  rw [popcount, popcountBelow_eq_countP]
  refine List.countP_congr fun p hp => ?_
  rw [BitVec.getLsbD_and, parityMask_getLsbD k hk p (List.mem_range.1 hp), Bool.and_comm]

/-- The fields of the Parity Vector, by their number. -/
theorem parity_get (w : Word) : ∀ k < 6, (parity w).get k = parityBit w k
  | 0, _ | 1, _ | 2, _ | 3, _ | 4, _ | 5, _ => rfl

/-- Settles O30: the masks are the coverage sets, so the ones under a mask can be counted position by position. -/
theorem parityCountsTheCoverageSet : Obligations.ParityCountsTheCoverageSet := by
  intro k hk
  refine ⟨fun p hp => ?_, fun w => ⟨parity_get w k hk, ?_⟩⟩
  · simp [parityMask_getLsbD k hk p hp, inCoverage]
  · rw [parity_get w k hk, parityBit, even_iff, popcount_and_parityMask w hk]

end Sys2Proof.Machine
end

section
/-! Words as the exclusive-or of their bits: SYNDROME and CORRECT position by position (40_codec.md R101, R102). -/
namespace Sys2Proof.Machine

theorem oneHot_getLsbD (p : Nat) {i : Nat} (hi : i < 32) : (1#32 <<< p).getLsbD i = decide (i = p) := by
  rw [← BitVec.twoPow_eq, BitVec.getLsbD_twoPow]
  by_cases h : i = p
  · simp [← h, hi]
  · simp [h, Ne.symm h]

/-- Settles O32: exclusive-or with the one bit at `e - 1`, and `e` is at most 31. -/
theorem correctFlipsOnePosition : Obligations.CorrectFlipsOnePosition := by
  intro w e p hp
  refine ⟨?_, fun _ => by omega⟩
  by_cases he : e = 0
  · rw [he, correct_zero]
    simp
  · rw [correct_of_ne w he, BitVec.getLsbD_xor, oneHot_getLsbD _ hp]
    simp only [ne_eq, he, not_false_eq_true, true_and]

/-- The word with the bit flipped at each of the positions in turn. -/
def flipPositions (v : Word) (ps : List Nat) : Word := ps.foldl (fun v p => v ^^^ 1#32 <<< p) v

/-- Each flip adds its position's column of the parity-check matrix to the syndrome (R63), for the syndrome is linear. -/
theorem syndrome_flipPositions (v : Word) (ps : List Nat) (hps : ∀ p ∈ ps, p < 32) :
    syndrome (parity (flipPositions v ps)) =
      ps.foldl (fun e p => e ^^^ BitVec.ofNat 5 (p + 1)) (syndrome (parity v)) := by
  induction ps generalizing v with
  | nil => rfl
  | cons p ps ih =>
    obtain ⟨hp, hps⟩ := List.forall_mem_cons.1 hps
    rw [List.foldl_cons, ← syndrome_oneHot hp, ← syndrome_xor, ← ih _ hps]
    rfl

/-- Flipping the ones of `w` below `n` in the zero word copies the low `n` bits of `w`. -/
theorem flipPositions_ones_below_getLsbD (w : Word) (n : Nat) {i : Nat} (hi : i < 32) :
    (flipPositions 0 ((List.range n).filter w.getLsbD)).getLsbD i = (decide (i < n) && w.getLsbD i) := by
  induction n with
  | zero => simp [flipPositions]
  | succ n ih =>
    have next : (flipPositions 0 ((List.range (n + 1)).filter w.getLsbD)).getLsbD i =
        ((flipPositions 0 ((List.range n).filter w.getLsbD)).getLsbD i ^^ (w.getLsbD n && decide (i = n))) := by
      cases h : w.getLsbD n <;> simp [flipPositions, List.range_succ, h, oneHot_getLsbD n hi]
    rw [next, ih]
    obtain hlt | rfl | hgt := Nat.lt_trichotomy i n
    · simp [hlt, hlt.ne, Nat.lt_succ_of_lt hlt]
    · simp
    · simp [hgt.ne', Nat.not_lt.2 hgt.le, Nat.not_lt.2 (Nat.succ_le_of_lt hgt)]

/-- Every word is the exclusive-or of its ones. -/
theorem flipPositions_onesOf (w : Word) : flipPositions 0 (onesOf w) = w := by
  refine BitVec.eq_of_getLsbD_eq fun i hi => ?_
  rw [onesOf, flipPositions_ones_below_getLsbD w 32 hi, decide_eq_true hi, Bool.true_and]

theorem lt_of_mem_onesOf {w : Word} {p : Nat} (h : p ∈ onesOf w) : p < 32 :=
  List.mem_range.1 (List.mem_filter.1 h).1

/-- The five weights are different powers of two, so their sum never carries (R101). -/
theorem syndrome_getLsbD (pv : ParityVector) {k : Nat} (hk : k < 5) : (syndrome pv).getLsbD k = !pv.get k := by
  obtain ⟨p0, p1, p2, p3, p4, p5⟩ := pv
  revert p0 p1 p2 p3 p4 p5 k
  decide

/-- Settles O31: a word is the exclusive-or of its ones, and the syndrome adds up their columns. -/
theorem syndromeIsTheExclusiveOrOfPositions : Obligations.SyndromeIsTheExclusiveOrOfPositions := by
  refine ⟨fun pv k hk => syndrome_getLsbD pv hk, fun w => ?_⟩
  calc syndrome (parity w)
    _ = syndrome (parity (flipPositions 0 (onesOf w))) := by rw [flipPositions_onesOf]
    _ = (onesOf w).foldl (fun e p => e ^^^ BitVec.ofNat 5 (p + 1)) (syndrome (parity 0)) :=
      syndrome_flipPositions 0 _ fun _ => lt_of_mem_onesOf
    _ = (onesOf w).foldl (fun e p => e ^^^ BitVec.ofNat 5 (p + 1)) 0 := rfl

end Sys2Proof.Machine
end

section
/-! EXTRACT and the payload's integer form (30_encoding.md R64, R65, 40_codec.md R104). -/
namespace Sys2Proof.Machine

theorem dataPositions_eq_filter :
    dataPositions = (List.range 32).filter (fun p => !Config.checkPositions.contains p) := by decide

/-- The bits of a field, highest first, have the field as their integer form (R6). -/
theorem natOfBits_field (w : Word) (lo n : Nat) :
    natOfBits ((List.range' lo n).map w.getLsbD).reverse = (w.extractLsb' lo n).toNat := by
  induction n with
  | zero => simp
  | succ n ih =>
    rw [List.range'_1_concat, List.map_append, List.reverse_append, List.map_singleton, List.reverse_singleton,
      List.singleton_append, natOfBits_cons, ih]
    simp only [BitVec.extractLsb'_toNat, List.length_reverse, List.length_map, List.length_range', Nat.mod_pow_succ]
    rw [BitVec.getLsbD, ← Nat.toNat_testBit, Nat.testBit_shiftRight]
    ring

/-- The payload positions are the fields `[30:16]`, `[14:8]`, `[6:4]` and `[2]` (R65). -/
theorem extract_eq_fields (w : Word) : extract w =
    ((List.range' 16 15).map w.getLsbD).reverse ++ ((List.range' 8 7).map w.getLsbD).reverse ++
      ((List.range' 4 3).map w.getLsbD).reverse ++ ((List.range' 2 1).map w.getLsbD).reverse := rfl

theorem append_toNat {n m : Nat} (a : BitVec n) (b : BitVec m) :
    (a ++ b).toNat = a.toNat * 2 ^ m + b.toNat := by
  rw [BitVec.toNat_append, ← Nat.shiftLeft_add_eq_or_of_lt b.isLt, Nat.shiftLeft_eq]

/-- The integer form of EXTRACT, field by field (R65). -/
theorem natOfBits_extract (w : Word) : natOfBits (extract w) = (payload w).toNat := by
  rw [extract_eq_fields, payload]
  simp only [natOfBits_append, append_toNat, natOfBits_field, List.length_reverse, List.length_map,
    List.length_range']

/-- EXTRACT reads the payload positions alone (R104). -/
theorem extract_congr {w w' : Word} (h : ∀ p ∈ dataPositions, w.getLsbD p = w'.getLsbD p) :
    extract w = extract w' :=
  congrArg List.reverse (List.map_congr_left h)

/-- Settles O33: the payload positions are those that are no check position, and they make up the four fields. -/
theorem extractTakesTheNonCheckPositions : Obligations.ExtractTakesTheNonCheckPositions := by
  refine ⟨fun w => by rw [extract, dataPositions_eq_filter], natOfBits_extract, fun w w' h => extract_congr fun p hp => ?_⟩
  rw [dataPositions_eq_filter, List.mem_filter, List.mem_range] at hp
  obtain ⟨hlt, hcheck⟩ := hp
  exact h p hlt (by simpa using hcheck)

end Sys2Proof.Machine
end

section
/-! `append_word` cuts the bit sequence and loses nothing (41_reassembler.md R120). -/
namespace Sys2Proof.Machine

/-- The bits of a byte, most significant first, are the 8 bits it was made of (20_memory.md R42). -/
theorem bitsOfNat_byteOfBits {s : List Bool} (h : s.length = 8) : bitsOfNat (byteOfBits s).toNat 8 = s := by
  have hlt := natOfBits_lt s
  rw [h] at hlt
  rw [byteOfBits, BitVec.toNat_ofNat, Nat.mod_eq_of_lt hlt, ← h, bitsOfNat_natOfBits_self]

/-- The first `n` groups of 8 and what follows them are the whole sequence. -/
theorem flatMap_groups_append_drop (t : List Bool) (n : Nat) :
    (List.range n).flatMap (fun j => (t.drop (8 * j)).take 8) ++ t.drop (8 * n) = t := by
  induction n with
  | zero => simp
  | succ n ih =>
    have next : (t.drop (8 * n)).take 8 ++ t.drop (8 * (n + 1)) = t.drop (8 * n) := by
      rw [Nat.mul_succ, ← List.drop_drop, List.take_append_drop]
    rw [List.range_succ, List.flatMap_append, List.flatMap_singleton, List.append_assoc, next, ih]

/-- The bits of the bytes cut off, followed by the trailing bits, are the sequence that was cut (R120). -/
theorem cutBytes_bits (t : List Bool) :
    (cutBytes t).1.flatMap (fun b => bitsOfNat b.toNat 8) ++ (cutBytes t).2 = t := by
  have groups : (cutBytes t).1.flatMap (fun b => bitsOfNat b.toNat 8) =
      (List.range (t.length / 8)).flatMap (fun j => (t.drop (8 * j)).take 8) := by
    rw [cutBytes, List.flatMap_map]
    refine List.flatMap_congr fun j hj => bitsOfNat_byteOfBits ?_
    have hj := List.mem_range.1 hj
    rw [List.length_take, List.length_drop]
    omega
  rw [groups]
  exact flatMap_groups_append_drop t _

/-- Settles O41: cutting loses no bit, and the numbers of bytes and bits are a quotient and a remainder by 8. -/
theorem appendWordKeepsEveryBitInOrder : Obligations.AppendWordKeepsEveryBitInOrder := by
  intro lo s hlo hs
  refine ⟨cutBytes_bits (lo ++ s), ?_, appendWord_rest_length_le lo s⟩
  rw [appendWord_bytes_length, hs]
  split_ifs <;> omega

end Sys2Proof.Machine
end

section
/-! One Uncorrectable word fails its block, and `PBLK` then rejects the block (41_reassembler.md R124, 42_commands.md R145). -/
namespace Sys2Proof.Machine

theorem prepend_eq_uncorrectable {bytes : List Byte} {r : BlockResult} :
    r.prepend bytes = .uncorrectable ↔ r = .uncorrectable := by
  cases r <;> simp [BlockResult.prepend]

/-- The words of a block fail together exactly when one of them fails (R124). -/
theorem processWords_eq_uncorrectable (ws : List Word) (lo : List Bool) :
    processWords ws lo = .uncorrectable ↔ ∃ w ∈ ws, decodeWord w = none := by
  induction ws generalizing lo with
  | nil => simp
  | cons w ws ih =>
    cases h : decodeWord w with
    | none => simp [processWords_cons_none ws lo h, h]
    | some s => simp [processWords_cons_some ws lo h, prepend_eq_uncorrectable, ih, h]

/-- `PBLK` on a block that `process_block` finds Uncorrectable (R145). -/
theorem execPblk_of_uncorrectable {s : State} (h4 : s.ilen.toNat % 4 = 0)
    (h : processBlock s.loaded s.lo = .uncorrectable) :
    execPblk s = respond uncorrectableData s.rejectBlock := by
  rw [execPblk, if_neg (not_not.2 h4), h]

/-- Settles O45: an Uncorrectable word among the loaded ones makes `PBLK` reject the block, which leaves the carry alone. -/
theorem oneBadWordAbortsTheBlock : Obligations.OneBadWordAbortsTheBlock := by
  refine ⟨processWords_eq_uncorrectable, fun s hinv h4 hbad => ?_⟩
  obtain ⟨-, hilen, -⟩ := hinv
  have hblock : processBlock s.loaded s.lo = .uncorrectable := by
    rw [processBlock_of_defined s.lo (by simpa using h4) (by simpa using hilen)]
    exact (processWords_eq_uncorrectable _ _).2 hbad
  exact ⟨s.rejectBlock.answer (okRsp uncorrectableData), execPblk_of_uncorrectable h4 hblock,
    rfl, rfl, rfl, rfl, rfl, rfl⟩

end Sys2Proof.Machine
end

section
/-! Command words of one opcode that are refused, and what the refusal leaves (30_encoding.md R69, 60_exceptions.md R204). -/
namespace Sys2Proof.Machine

/-- A word the decoder refuses meets the one fault operation in every state. -/
theorem raisesIllegalCmd_of_refused {w : Cmd} (h : ∃ e, decode w = .error e) : RaisesIllegalCmd w :=
  fun s => perform_of_error s h.choose_spec

/-- The six commands without operand refuse every `imm` but 0. -/
theorem raisesIllegalCmd_plain {op : BitVec 8} (hop : op.toNat ∈ [0, 1, 2, 4, 6, 7]) (imm : BitVec 32) (h : imm ≠ 0) :
    RaisesIllegalCmd (cmdWord op imm) :=
  raisesIllegalCmd_of_refused ⟨_, decode_plain_illegal hop h⟩

/-- `BPUSH` refuses an `imm` with a one above its byte. -/
theorem raisesIllegalCmd_bpush (imm : BitVec 32) (h : imm.extractLsb' 8 24 ≠ 0) : RaisesIllegalCmd (cmdWord 0x03 imm) := by
  refine raisesIllegalCmd_of_refused ((decode_refuses_iff _).1 (.inr (.inr (.inl ⟨?_, ?_⟩))))
  · rw [cmdOp_cmdWord]; rfl
  · rwa [cmdImm_cmdWord]

/-- `RDOB` refuses an `imm` with a one above its index. -/
theorem raisesIllegalCmd_rdob (imm : BitVec 32) (h : imm.extractLsb' 9 23 ≠ 0) : RaisesIllegalCmd (cmdWord 0x08 imm) := by
  refine raisesIllegalCmd_of_refused ((decode_refuses_iff _).1 (.inr (.inr (.inr ⟨?_, ?_⟩))))
  · rw [cmdOp_cmdWord]; rfl
  · rwa [cmdImm_cmdWord]

/-- A zero-extended operand is added to the opcode's word (R68). -/
theorem cmdWord_setWidth_toNat (op : BitVec 8) {n : Nat} (b : BitVec n) (hn : n ≤ 32) :
    (cmdWord op (b.setWidth 32)).toNat = op.toNat * 2 ^ 32 + b.toNat := by
  rw [cmdWord_toNat, BitVec.toNat_setWidth_of_le hn]

end Sys2Proof.Machine
end

section
/-! The commands that only respond or clear registers: `NOP`, `TRST`, `BCLR` (42_commands.md R141 to R143). -/
namespace Sys2Proof.Machine

/-- Settles O10: `NOP` is the bare response 0. -/
theorem nopRespondsZeroAndChangesNothing : Obligations.NopRespondsZeroAndChangesNothing :=
  ⟨rfl, raisesIllegalCmd_plain (by decide), fun _ => rfl⟩

/-- Settles O11: `TRST` is one update of five fields and the response 0. -/
theorem trstClearsTheTransfer : Obligations.TrstClearsTheTransfer :=
  ⟨rfl, raisesIllegalCmd_plain (by decide), fun _ => rfl⟩

/-- Settles O13: `BCLR` is one update of `ILEN` and the response 0. -/
theorem bclrEmptiesTheInputBuffer : Obligations.BclrEmptiesTheInputBuffer :=
  ⟨rfl, raisesIllegalCmd_plain (by decide), fun _ => rfl⟩

end Sys2Proof.Machine
end

section
/-! The status word and the length word, field by field (30_encoding.md R72, R73): each is an or of fields shifted into
places that do not overlap, so a field reads back from its own term alone. -/
namespace Sys2Proof.Machine

/-- A field reads back from the place it was shifted to. -/
theorem extract_shifted_same {n : Nat} (x : BitVec n) {k : Nat} (h : k + n ≤ 32) :
    (x.setWidth 32 <<< k).extractLsb' k n = x := by
  refine BitVec.eq_of_getLsbD_eq fun i hi => ?_
  simp [hi, show k + i < 32 by omega]

/-- Outside the place it was shifted to a field leaves zeros. -/
theorem extract_shifted_other {n : Nat} (x : BitVec n) {k start len : Nat} (h : start + len ≤ k ∨ k + n ≤ start) :
    (x.setWidth 32 <<< k).extractLsb' start len = 0 := by
  refine BitVec.eq_of_getLsbD_eq fun i hi => ?_
  simp only [BitVec.getLsbD_extractLsb', BitVec.getLsbD_shiftLeft, BitVec.getLsbD_setWidth]
  obtain h | h := h
  · simp [show start + i < k by omega]
  · simp [BitVec.getLsbD_of_ge x (start + i - k) (by omega)]

/-- The status word with a shift on each of its four terms (R72). -/
theorem statusWord_eq_shifted (unc : Bool) (fcode loCnt : BitVec 3) (loReg : BitVec 7) :
    statusWord unc fcode loCnt loReg = ((BitVec.ofBool unc).setWidth 32 <<< 31) ||| (fcode.setWidth 32 <<< 28) |||
      (loCnt.setWidth 32 <<< 8) ||| (loReg.setWidth 32 <<< 0) := by
  rw [BitVec.shiftLeft_zero, statusWord]

theorem statusWord_fields (unc : Bool) (fcode loCnt : BitVec 3) (loReg : BitVec 7) :
    (statusWord unc fcode loCnt loReg).extractLsb' 31 1 = BitVec.ofBool unc ∧
    (statusWord unc fcode loCnt loReg).extractLsb' 28 3 = fcode ∧
    (statusWord unc fcode loCnt loReg).extractLsb' 11 17 = 0 ∧
    (statusWord unc fcode loCnt loReg).extractLsb' 8 3 = loCnt ∧
    (statusWord unc fcode loCnt loReg).extractLsb' 7 1 = 0 ∧
    (statusWord unc fcode loCnt loReg).extractLsb' 0 7 = loReg := by
  simp only [statusWord_eq_shifted, BitVec.extractLsb'_or]
  simp [extract_shifted_same, extract_shifted_other, -BitVec.shiftLeft_zero]

theorem lengthWord_fields (ilen : BitVec 10) (olen : BitVec 9) :
    (lengthWord ilen olen).extractLsb' 26 6 = 0 ∧ (lengthWord ilen olen).extractLsb' 16 10 = ilen ∧
    (lengthWord ilen olen).extractLsb' 9 7 = 0 ∧ (lengthWord ilen olen).extractLsb' 0 9 = olen := by
  have shifted : lengthWord ilen olen = (ilen.setWidth 32 <<< 16) ||| (olen.setWidth 32 <<< 0) := by
    rw [BitVec.shiftLeft_zero, lengthWord]
  simp only [shifted, BitVec.extractLsb'_or]
  simp [extract_shifted_same, extract_shifted_other, -BitVec.shiftLeft_zero]

/-- One bit of a word as the field of width 1 at its position. -/
theorem getLsbD_of_extract {v : Word} {p : Nat} {b : Bool} (h : v.extractLsb' p 1 = BitVec.ofBool b) :
    v.getLsbD p = b := by
  have bit := congrArg (fun x : BitVec 1 => x.getLsbD 0) h
  simpa using bit

/-- Settles O17: the status word holds each field in its own place. -/
theorem rdstRespondsWithTheStatusWord : Obligations.RdstRespondsWithTheStatusWord := by
  refine ⟨rfl, raisesIllegalCmd_plain (by decide), fun s => ⟨statusWord s.unc s.fcode s.loCnt s.loReg, rfl, ?_⟩⟩
  obtain ⟨hunc, hfcode, hgap, hcnt, hbit7, hreg⟩ := statusWord_fields s.unc s.fcode s.loCnt s.loReg
  exact ⟨getLsbD_of_extract hunc, hfcode, hgap, hcnt, getLsbD_of_extract hbit7, hreg⟩

/-- Settles O18: the length word holds both lengths in their own places. -/
theorem rdlnRespondsWithTheLengthWord : Obligations.RdlnRespondsWithTheLengthWord :=
  ⟨rfl, raisesIllegalCmd_plain (by decide), fun s =>
    ⟨lengthWord s.ilen s.olen, rfl, lengthWord_fields s.ilen s.olen⟩⟩

end Sys2Proof.Machine
end

section
/-! `BPUSH` and `RDOB` on the two sides of their checks (42_commands.md R144, R149). -/
namespace Sys2Proof.Machine

theorem execBpush_of_room (byte : Byte) {s : State} (h : s.ilen.toNat < 512) :
    execBpush byte s = respond 0 { s with ibuf := s.ibuf.write s.ilen.toNat byte, ilen := s.ilen + 1 } := by
  obtain ⟨hfull, -⟩ | ⟨-, e⟩ | ⟨hover, -⟩ := execBpush_cases byte s
  · omega
  · exact e
  · omega

theorem execBpush_of_full (byte : Byte) {s : State} (h : s.ilen.toNat = 512) :
    execBpush byte s = .next (s.afterFault .ibufOverflow) := by
  obtain ⟨-, e⟩ | ⟨hroom, -⟩ | ⟨hover, -⟩ := execBpush_cases byte s
  · exact e
  · omega
  · omega

/-- Settles O14: with room the byte goes to `IBUF[ILEN]` and only that byte of the buffer changes; a full buffer faults. -/
theorem bpushAppendsAByte : Obligations.BpushAppendsAByte := by
  refine ⟨fun byte => cmdWord_setWidth_toNat 0x03 byte (by decide), raisesIllegalCmd_bpush,
    fun s byte ⟨_, _, _, _, hibuf, _⟩ => ⟨fun hroom => ?_, fun hfull => ?_⟩⟩
  · refine ⟨_, execBpush_of_room byte hroom, ?_, Memory.read_write_same _ byte hibuf,
      fun a ha => Memory.read_write_ne _ byte ha, rfl⟩
    have fits : s.ilen.toNat + 1 < 2 ^ 10 := by omega
    exact BitVec.toNat_add_of_lt fits
  · exact execBpush_of_full byte hfull

theorem execRdob_of_readable {idx : BitVec 9} {s : State} (holen : s.olen.toNat ≤ 416) (h : idx.toNat < s.olen.toNat) :
    execRdob idx s = respond (byteData (s.obuf.read idx.toNat)) s := by
  obtain ⟨hbad, -⟩ | ⟨-, -, e⟩ | ⟨hover, -⟩ := execRdob_cases idx s
  · omega
  · exact e
  · omega

theorem execRdob_of_beyond {idx : BitVec 9} {s : State} (h : s.olen.toNat ≤ idx.toNat) :
    execRdob idx s = .next (s.afterFault .badIndex) :=
  if_pos h

/-- Settles O19: below `OLEN` the byte is read; `OLEN` is at most 416, so any other index fails the check. -/
theorem rdobReadsADecodedByte : Obligations.RdobReadsADecodedByte := by
  refine ⟨fun idx => cmdWord_setWidth_toNat 0x08 idx (by decide), raisesIllegalCmd_rdob,
    fun s idx ⟨_, _, holen, _⟩ => ⟨execRdob_of_readable holen, fun hbad => execRdob_of_beyond ?_⟩⟩
  have holen : s.olen.toNat ≤ 416 := holen
  omega

end Sys2Proof.Machine
end

section
/-! `DECW` (42_commands.md R146). -/
namespace Sys2Proof.Machine

theorem decodeData_of_uncorrectable {word : Word} (h : decodeWord word = none) :
    decodeData word = uncorrectableData := by
  rw [decodeData, h]

/-- A word that decodes is answered with the payload of the corrected word (R65, R71). -/
theorem decodeData_of_decoded {word : Word} {d : List Bool} (h : decodeWord word = some d) :
    decodeData word = (payload (corrected word)).setWidth 32 := by
  obtain ⟨-, rfl⟩ := decodeWord_eq_some.1 h
  rw [decodeData, h]
  show BitVec.ofNat 32 (natOfBits (extract (corrected word))) = _
  rw [natOfBits_extract, BitVec.ofNat_toNat]

/-- Opcode 5 decodes with every `imm` (R68). -/
theorem decode_decw (word : Word) : decode (cmdWord 0x05 word) = .ok (.decw word) := by
  rw [decode, cmdOp_cmdWord, cmdImm_cmdWord]
  rfl

theorem exec_decw (word : Word) (s : State) :
    exec (.decw word) s = .next { s with rsps := s.rsps ++ [okRsp (decodeData word)] } := rfl

/-- Settles O16: `DECW` responds with `decodeData` and reads no state. -/
theorem decwRespondsWithThePayload : Obligations.DecwRespondsWithThePayload := by
  refine ⟨fun word => ⟨cmdWord_toNat 0x05 word, decode_decw word⟩, fun word s => ⟨fun h => ?_, fun d h => ?_⟩⟩
  · rw [exec_decw, decodeData_of_uncorrectable h]
    rfl
  · rw [exec_decw, decodeData_of_decoded h]

end Sys2Proof.Machine
end

section
/-! `PBLK` (42_commands.md R145): the numbers of bytes and bits a block gives (41_reassembler.md R122, R126), then each of the
three endings. -/
namespace Sys2Proof.Machine

/-- Every word of a block that decodes adds 26 bits, and the bits leave as whole bytes (R122). -/
theorem processWords_decoded_lengths {ws : List Word} {lo lo' : List Bool} {out : List Byte} (hlo : lo.length ≤ 7)
    (h : processWords ws lo = .decoded out lo') :
    8 * out.length + lo'.length = lo.length + 26 * ws.length ∧ lo'.length ≤ 7 := by
  induction ws generalizing lo out with
  | nil =>
    cases h
    exact ⟨by simp, hlo⟩
  | cons w ws ih =>
    cases hw : decodeWord w with
    | none =>
      rw [processWords_cons_none ws lo hw] at h
      cases h
    | some d =>
      rw [processWords_cons_some ws lo hw] at h
      obtain ⟨out', hrest, rfl⟩ := prepend_eq_decoded.1 h
      obtain ⟨hsum, hle⟩ := ih (appendWord_rest_length_le lo d) hrest
      rw [appendWord_rest_length, decodeWord_length hw] at hsum
      refine ⟨?_, hle⟩
      rw [List.length_append, appendWord_bytes_length, decodeWord_length hw, List.length_cons]
      omega

/-- The same for a block, whose words are a quarter of its bytes; a block has at most 512 of them. -/
theorem processBlock_decoded_lengths {blk : List Byte} {lo lo' : List Bool} {out : List Byte} (hlo : lo.length ≤ 7)
    (h : processBlock blk lo = .decoded out lo') :
    8 * out.length + lo'.length = lo.length + 26 * (blk.length / 4) ∧ lo'.length ≤ 7 ∧ blk.length ≤ 512 := by
  have defined : blk.length % 4 = 0 ∧ blk.length ≤ 512 := by
    by_contra hnot
    rw [(processBlock_eq_notDefined blk lo).2 hnot] at h
    cases h
  obtain ⟨h4, h512⟩ := defined
  rw [processBlock_of_defined lo h4 h512] at h
  rw [← wordsOfBytes_length]
  obtain ⟨hsum, hle⟩ := processWords_decoded_lengths hlo h
  exact ⟨hsum, hle, h512⟩

/-- A canonical carry is kept when it is stored again (R22). -/
theorem setLo_lo {s : State} (h : s.loReg.toNat < 2 ^ s.loCnt.toNat) : s.setLo s.lo = s := by
  rw [State.setLo, lo_length, natOfBits_lo s h, BitVec.ofNat_toNat, BitVec.ofNat_toNat, BitVec.setWidth_eq,
    BitVec.setWidth_eq]

/-- `PBLK` on a block that `process_block` decodes (R145). -/
theorem execPblk_of_decoded {s : State} {out : List Byte} {lo' : List Bool} (h4 : s.ilen.toNat % 4 = 0)
    (h : processBlock s.loaded s.lo = .decoded out lo') :
    execPblk s = respond (BitVec.ofNat 32 out.length) (s.commitBlock out lo') := by
  rw [execPblk, if_neg (not_not.2 h4), h]

theorem execPblk_of_badLength {s : State} (h : s.ilen.toNat % 4 ≠ 0) :
    execPblk s = .next (s.afterFault .badLength) :=
  if_pos h

/-- The loaded block has the length that `process_block` is defined for, so it is Uncorrectable or it decodes (R123). -/
theorem loaded_uncorrectable_or_decoded {s : State} (h4 : s.ilen.toNat % 4 = 0) (hilen : s.ilen.toNat ≤ 512) :
    processBlock s.loaded s.lo = .uncorrectable ∨ ∃ out lo', processBlock s.loaded s.lo = .decoded out lo' := by
  cases h : processBlock s.loaded s.lo with
  | uncorrectable => exact .inl rfl
  | decoded out lo' => exact .inr ⟨out, lo', rfl⟩
  | notDefined =>
    have hnot := (processBlock_eq_notDefined s.loaded s.lo).1 h
    rw [Memory.readBytes_length] at hnot
    exact absurd ⟨h4, hilen⟩ hnot

/-- The bounds of R126 for the loaded block: at most 416 bytes and 7 bits; a full block gives exactly 416 bytes and keeps
the number of bits. -/
theorem loaded_decoded_lengths {s : State} {out : List Byte} {lo' : List Bool}
    (h : processBlock s.loaded s.lo = .decoded out lo') :
    out.length ≤ 416 ∧ lo'.length ≤ 7 ∧ (s.ilen.toNat = 512 → out.length = 416 ∧ lo'.length = s.loCnt.toNat) := by
  obtain ⟨hsum, hlo', h512⟩ := processBlock_decoded_lengths (lo_length_le s) h
  have hlo := lo_length_le s
  rw [Memory.readBytes_length] at hsum h512
  rw [lo_length] at hsum hlo
  refine ⟨by omega, hlo', fun hfull => ?_⟩
  rw [hfull] at hsum
  omega

/-- The empty block decodes to no bytes and leaves the carry (R125). -/
theorem loaded_empty {s : State} (h : s.ilen = 0) : processBlock s.loaded s.lo = .decoded [] s.lo := by
  rw [State.loaded, h]
  exact processBlock_of_defined s.lo rfl (Nat.zero_le 512)

/-- To commit the empty block is to clear `OLEN` and `UNC`. -/
theorem commitBlock_empty {s : State} (hcanonical : s.loReg.toNat < 2 ^ s.loCnt.toNat) (h : s.ilen = 0) :
    s.commitBlock [] s.lo = { s with olen := 0, unc := false } := by
  rw [State.commitBlock, setLo_lo hcanonical, ← h]
  rfl

theorem commitBlock_olen_toNat (s : State) {out : List Byte} (lo' : List Bool) (h : out.length ≤ 416) :
    (s.commitBlock out lo').olen.toNat = out.length := by
  rw [commitBlock_olen, BitVec.toNat_ofNat, Nat.mod_eq_of_lt (by omega)]

/-- A full block that decodes gives 416 bytes and keeps `LO_CNT` (R126). -/
theorem execPblk_full {s t : State} (hfull : s.ilen.toNat = 512) (hexec : execPblk s = .next t)
    (hunc : t.unc = false) : t.olen = 416 ∧ t.loCnt = s.loCnt := by
  have h4 : s.ilen.toNat % 4 = 0 := by rw [hfull]
  obtain hbad | ⟨out, lo', hgood⟩ := loaded_uncorrectable_or_decoded h4 hfull.le
  · rw [execPblk_of_uncorrectable h4 hbad] at hexec
    cases hexec
    cases hunc
  · rw [execPblk_of_decoded h4 hgood] at hexec
    cases hexec
    obtain ⟨-, -, hlengths⟩ := loaded_decoded_lengths hgood
    obtain ⟨hout, hlo'⟩ := hlengths hfull
    constructor
    · rw [answer_olen, commitBlock_olen, hout]
      rfl
    · rw [answer_loCnt, commitBlock_loCnt, hlo', BitVec.ofNat_toNat, BitVec.setWidth_eq]

/-- The empty block succeeds and clears `OLEN` and `UNC` alone (R125). -/
theorem execPblk_empty {s : State} (hcanonical : s.loReg.toNat < 2 ^ s.loCnt.toNat) (h : s.ilen = 0) :
    execPblk s = respond 0 { s with olen := 0, unc := false } := by
  have h4 : s.ilen.toNat % 4 = 0 := by rw [h]; rfl
  rw [execPblk_of_decoded h4 (loaded_empty h), commitBlock_empty hcanonical h]
  rfl

/-- Settles O15: the length check, then `process_block`'s two answers; the corner cases are its lengths at 0 and 512. -/
theorem pblkProcessesTheLoadedBlock : Obligations.PblkProcessesTheLoadedBlock := by
  refine ⟨rfl, raisesIllegalCmd_plain (by decide), fun s hinv => ?_⟩
  obtain ⟨hcanonical, hilen, -, -, -, hobuf, -⟩ := hinv
  refine ⟨execPblk_of_badLength, fun h4 => ?_, execPblk_empty hcanonical, fun t => execPblk_full⟩
  obtain hbad | ⟨out, lo', hgood⟩ := loaded_uncorrectable_or_decoded h4 hilen
  · exact .inl ⟨hbad, _, execPblk_of_uncorrectable h4 hbad, rfl⟩
  · obtain ⟨hout, hlo', -⟩ := loaded_decoded_lengths hgood
    have inside (j : Nat) (hj : j < out.length) : (s.obuf.writeBytes 0 out).read j = out[j] := by
      simpa using Memory.read_writeBytes_inside 0 out hobuf hj
    have outside (j : Nat) (hj : out.length ≤ j) : (s.obuf.writeBytes 0 out).read j = s.obuf.read j :=
      Memory.read_writeBytes_outside s.obuf 0 out (.inr (by omega))
    exact .inr ⟨out, lo', hgood, _, execPblk_of_decoded h4 hgood, commitBlock_olen_toNat s lo' hout, inside, outside,
      setLo_loCnt_toNat s hlo', setLo_loReg_toNat s hlo', rfl⟩

end Sys2Proof.Machine
end

section
/-! Fault entry (60_exceptions.md R204, R205): a command word ends in the one fault operation, or its response says that there
was no fault and `FCODE` is as before. -/
namespace Sys2Proof.Machine

/-- Of the effects of R150 only the fault writes `FCODE`; each of the others answers once, without a fault. -/
theorem exec_faults_or_keeps_fcode {i : Instr} {s t : State} (h : exec i s = .next t) :
    (∃ f, t = s.afterFault f) ∨ ∃ v, t.rsps = s.rsps ++ [okRsp v] ∧ t.fcode = s.fcode := by
  obtain ⟨v, rfl⟩ | hfault | ⟨-, rfl⟩ | ⟨-, rfl⟩ | ⟨_, -, -, rfl⟩ | ⟨-, -, -, -, rfl⟩ | ⟨out, _, -, -, -, -, rfl⟩ :=
    exec_next_cases h
  · exact .inr ⟨v, rfl, rfl⟩
  · exact .inl hfault
  · exact .inr ⟨0, rfl, rfl⟩
  · exact .inr ⟨0, rfl, rfl⟩
  · exact .inr ⟨0, rfl, rfl⟩
  · exact .inr ⟨uncorrectableData, rfl, rfl⟩
  · exact .inr ⟨BitVec.ofNat 32 out.length, rfl, rfl⟩

/-- The same for a command word: an illegal one meets the same fault operation (R69). -/
theorem perform_faults_or_keeps_fcode {w : Cmd} {s t : State} (h : perform w s = .next t) :
    (∃ f, t = s.afterFault f) ∨ ∃ v, t.rsps = s.rsps ++ [okRsp v] ∧ t.fcode = s.fcode := by
  cases hd : decode w with
  | ok i =>
    rw [perform_of_ok s hd] at h
    exact exec_faults_or_keeps_fcode h
  | error e =>
    rw [perform_of_error s hd] at h
    cases h
    exact .inl ⟨.illegalCmd, rfl⟩

/-- Two accounts of the response added to the same list agree. -/
theorem response_unique {t : State} {rs : List Rsp} {r r' : Rsp} (h : t.rsps = rs ++ [r]) (h' : t.rsps = rs ++ [r']) :
    r = r' :=
  List.singleton_inj.1 (List.append_cancel_left (h.symm.trans h'))

/-- Settles O24: a response that says fault comes from the fault operation, which writes `FCODE` alone. -/
theorem aFaultWritesOnlyFcode : Obligations.AFaultWritesOnlyFcode := by
  intro s t w rest r hin hstep hrsps hflt
  rw [step_of_command hin] at hstep
  obtain ⟨f, rfl⟩ | ⟨v, hok, -⟩ := perform_faults_or_keeps_fcode hstep
  · obtain rfl := response_unique hrsps rfl
    exact ⟨f, rdata_faultRsp f.code, rfl⟩
  · obtain rfl := response_unique hrsps hok
    rw [rflt_okRsp] at hflt
    cases hflt

theorem step_of_hardwareReset {s : State} {rest : List Input} (h : s.inputs = .hardwareReset :: rest) :
    step s = .next (hardwareReset { s with inputs := rest }) := by
  simp only [step, takeInput, h]

/-- A command keeps an `FCODE` that is not 0: the fault operation is the only writer, and the first fault wins. -/
theorem exec_keeps_recorded_fcode {i : Instr} {s t : State} (h : exec i s = .next t) (hf : s.fcode ≠ 0) :
    t.fcode = s.fcode := by
  obtain ⟨f, rfl⟩ | ⟨-, -, hkept⟩ := exec_faults_or_keeps_fcode h
  · exact recordFault_of_ne f.code hf
  · exact hkept

/-- A later fault changes the list of responses alone (R205). -/
theorem afterFault_of_recorded {s : State} (f : InterfaceFault) (hf : s.fcode ≠ 0) :
    s.afterFault f = { s with rsps := s.rsps ++ [faultRsp f.code] } := by
  rw [State.afterFault, recordFault_of_ne f.code hf, State.answer]

/-- Settles O26: a step waits, resets, performs a command or refuses a word; the reset alone clears `FCODE`. -/
theorem fcodeIsStickyAndFirstWins : Obligations.FcodeIsStickyAndFirstWins := by
  refine ⟨fun s t hstep hf hnoReset => ?_, fun s rest h => ⟨_, step_of_hardwareReset h, rfl⟩,
    fun s f hf => congrArg Host.Outcome.next (afterFault_of_recorded f hf)⟩
  obtain ⟨-, e⟩ | ⟨rest, hreset, -⟩ | ⟨w, rest, i, -, -, e⟩ | ⟨w, rest, -, -, -, e⟩ := step_cases s
  · rw [e] at hstep
    cases hstep
    rfl
  · exact absurd hreset (hnoReset rest)
  · rw [e] at hstep
    exact exec_keeps_recorded_fcode (s := { s with inputs := rest }) hstep hf
  · rw [e] at hstep
    cases hstep
    exact recordFault_of_ne _ hf

end Sys2Proof.Machine
end

section
/-! The cause of each interface fault (60_exceptions.md R203): a command word whose own check fails is answered with the fault
of that check, any other without a fault. -/
namespace Sys2Proof.Machine

/-- What raises each interface fault when a command word is performed (R203). -/
def FaultCause (w : Cmd) (s : State) : InterfaceFault → Prop
  | .illegalCmd => ∃ e, decode w = .error e
  | .badLength => decode w = .ok .pblk ∧ s.ilen.toNat % 4 ≠ 0
  | .ibufOverflow => (∃ byte, decode w = .ok (.bpush byte)) ∧ s.ilen.toNat = 512
  | .badIndex => ∃ idx, decode w = .ok (.rdob idx) ∧ s.olen.toNat ≤ idx.toNat

/-- A cause always raises its fault. -/
theorem perform_of_cause {w : Cmd} {s : State} {f : InterfaceFault} (h : FaultCause w s f) :
    perform w s = .next (s.afterFault f) := by
  cases f with
  | illegalCmd =>
    obtain ⟨e, hd⟩ := h
    exact perform_of_error s hd
  | badLength =>
    obtain ⟨hd, hbad⟩ := h
    exact (perform_of_ok s hd).trans (execPblk_of_badLength hbad)
  | ibufOverflow =>
    obtain ⟨⟨byte, hd⟩, hfull⟩ := h
    exact (perform_of_ok s hd).trans (execBpush_of_full byte hfull)
  | badIndex =>
    obtain ⟨idx, hd, hbeyond⟩ := h
    exact (perform_of_ok s hd).trans (execRdob_of_beyond hbeyond)

/-- A command that passes its own check (R207) completes without a fault. -/
theorem exec_of_admits {i : Instr} {s : State} (hinv : s.Inv) (h : s.Admits i) :
    ∃ t v, exec i s = .next t ∧ t.rsps = s.rsps ++ [okRsp v] := by
  obtain ⟨-, hilen, holen, -⟩ := hinv
  cases i with
  | nop => exact ⟨_, _, rfl, rfl⟩
  | trst => exact ⟨_, _, rfl, rfl⟩
  | bclr => exact ⟨_, _, rfl, rfl⟩
  | bpush byte => exact ⟨_, _, execBpush_of_room byte h, rfl⟩
  | pblk =>
    obtain hbad | ⟨out, lo', hgood⟩ := loaded_uncorrectable_or_decoded h hilen
    · exact ⟨_, _, execPblk_of_uncorrectable h hbad, rfl⟩
    · exact ⟨_, _, execPblk_of_decoded h hgood, rfl⟩
  | decw word => exact ⟨_, _, rfl, rfl⟩
  | rdst => exact ⟨_, _, rfl, rfl⟩
  | rdln => exact ⟨_, _, rfl, rfl⟩
  | rdob idx => exact ⟨_, _, execRdob_of_readable holen h, rfl⟩

/-- A command that fails its own check has met the cause of a fault. -/
theorem cause_of_not_admits {w : Cmd} {i : Instr} {s : State} (hinv : s.Inv) (hd : decode w = .ok i)
    (h : ¬s.Admits i) : ∃ f, FaultCause w s f := by
  obtain ⟨-, hilen, -⟩ := hinv
  cases i with
  | bpush byte => exact ⟨.ibufOverflow, ⟨byte, hd⟩, le_antisymm hilen (not_lt.1 h)⟩
  | pblk => exact ⟨.badLength, hd, h⟩
  | rdob idx => exact ⟨.badIndex, idx, hd, not_lt.1 h⟩
  | nop | trst | bclr | decw _ | rdst | rdln => exact absurd trivial h

/-- A command word that meets no cause is a command that passes its check, so it completes without a fault. -/
theorem perform_of_no_cause {w : Cmd} {s : State} (hinv : s.Inv) (h : ¬∃ f, FaultCause w s f) :
    ∃ t v, perform w s = .next t ∧ t.rsps = s.rsps ++ [okRsp v] := by
  cases hd : decode w with
  | error e => exact absurd ⟨.illegalCmd, e, hd⟩ h
  | ok i =>
    rw [perform_of_ok s hd]
    exact exec_of_admits hinv (not_not.1 fun hbroken => h (cause_of_not_admits hinv hd hbroken))

/-- The code in a fault response tells the fault. -/
theorem fault_of_rdata {f g : InterfaceFault} (h : rdata (faultRsp f.code) = g.code.setWidth 32) : f = g := by
  rw [rdata_faultRsp] at h
  have codes := congrArg (BitVec.setWidth 3) h
  rw [BitVec.setWidth_setWidth_of_le _ (by decide), BitVec.setWidth_setWidth_of_le _ (by decide)] at codes
  exact code_injective (by simpa using codes)

/-- A command word meets one cause at most. -/
theorem cause_unique {w : Cmd} {s : State} {f g : InterfaceFault} (hf : FaultCause w s f) (hg : FaultCause w s g) :
    f = g := by
  have same : s.afterFault f = s.afterFault g :=
    Host.Outcome.next.inj ((perform_of_cause hf).symm.trans (perform_of_cause hg))
  have answered : (s.afterFault f).rsps = s.rsps ++ [faultRsp g.code] := same ▸ rfl
  exact fault_of_rdata (response_unique rfl answered ▸ rdata_faultRsp g.code)

/-- In a state that keeps R32 a command word is answered once, with the fault whose cause it meets, or without a fault when it
meets none. -/
theorem perform_answers (w : Cmd) {s : State} (hinv : s.Inv) :
    ∃ t r, perform w s = .next t ∧ t.rsps = s.rsps ++ [r] ∧
      (rflt r = true → ∃ f : InterfaceFault, r = faultRsp f.code ∧ t.fcode = recordFault s.fcode f.code) ∧
      ∀ f, (rflt r = true ∧ rdata r = f.code.setWidth 32) ↔ FaultCause w s f := by
  by_cases hcause : ∃ f, FaultCause w s f
  · obtain ⟨f, hf⟩ := hcause
    exact ⟨_, faultRsp f.code, perform_of_cause hf, rfl, fun _ => ⟨f, rfl, rfl⟩, fun g =>
      ⟨fun ⟨_, hg⟩ => fault_of_rdata hg ▸ hf,
        fun hg => cause_unique hf hg ▸ ⟨rflt_faultRsp f.code, rdata_faultRsp f.code⟩⟩⟩
  · obtain ⟨t, v, hnext, hrsps⟩ := perform_of_no_cause hinv hcause
    have noFault : rflt (okRsp v) ≠ true := by simp
    exact ⟨t, okRsp v, hnext, hrsps, fun hr => absurd hr noFault, fun f =>
      ⟨fun ⟨hr, _⟩ => absurd hr noFault, fun hf => absurd ⟨f, hf⟩ hcause⟩⟩

/-- There is no fault code but 1 to 4. -/
theorem rdata_faultRsp_code (f : InterfaceFault) :
    rdata (faultRsp f.code) = 1 ∨ rdata (faultRsp f.code) = 2 ∨ rdata (faultRsp f.code) = 3 ∨
      rdata (faultRsp f.code) = 4 := by
  rw [rdata_faultRsp]
  cases f with
  | illegalCmd => exact .inl rfl
  | badLength => exact .inr (.inl rfl)
  | ibufOverflow => exact .inr (.inr (.inl rfl))
  | badIndex => exact .inr (.inr (.inr rfl))

/-- Settles O25: the answer to a command word carries a code exactly when that code's cause is met. -/
theorem eachFaultHasItsCause : Obligations.EachFaultHasItsCause := by
  intro s w rest hinv hin
  obtain ⟨t, r, hnext, hrsps, hfault, hcause⟩ := perform_answers w (s := { s with inputs := rest }) hinv
  refine ⟨t, r, (step_of_command hin).trans hnext, hrsps, fun hr => ?_, fun hr hclear => ?_,
    hcause .illegalCmd, hcause .badLength, hcause .ibufOverflow, hcause .badIndex⟩
  · obtain ⟨f, rfl, -⟩ := hfault hr
    exact rdata_faultRsp_code f
  · obtain ⟨f, rfl, hcode⟩ := hfault hr
    rw [hcode, rdata_faultRsp, hclear, recordFault_zero]

end Sys2Proof.Machine
end

section
/-! The payload answer of `DECW` as one equation (30_encoding.md R71): no proof needs it, the compile does. -/
namespace Sys2Proof.Machine

/- Lean proves an `example` where it stands, while the bodies of the theorems above still wait their turn, so the unfolding
equation of `decodeData` is built here. Otherwise two lemmas about `DECW` ask for it at the same moment, one waits for the other,
and the thread that takes its place is more than the memory limit holds while the tests are evaluated. -/
example (word : Word) :
    decodeData word = (decodeWord word).elim uncorrectableData fun d => BitVec.ofNat 32 (natOfBits d) := by
  rw [decodeData]
  cases decodeWord word with
  | none => rfl
  | some d => rfl

end Sys2Proof.Machine
end

section
/-! `TRST` beside the hardware reset (70_reset_and_hazards.md R231). -/
namespace Sys2Proof.Machine

/-- A buffer with no valid byte shows nothing of its contents (R24, R25). -/
theorem Memory.agreeBelow_zero (m m' : Memory) : Memory.AgreeBelow 0 m m' := fun i hi => absurd hi (Nat.not_lt_zero i)

/-- Settles O12: the registers agree one by one; the reset empties the buffers and `TRST` does not, but with `ILEN` and `OLEN`
at 0 no byte of them is readable. -/
theorem trstIsAResetThatKeepsFcode : Obligations.TrstIsAResetThatKeepsFcode := by
  intro s
  obtain ⟨-, -, hexec⟩ := trstClearsTheTransfer
  exact ⟨_, hexec s,
    { loCnt := rfl, loReg := rfl, ilen := rfl, olen := rfl, unc := rfl, fcode := rfl, inputs := rfl, rsps := rfl
      ibuf := Memory.agreeBelow_zero s.ibuf []
      obuf := Memory.agreeBelow_zero s.obuf [] }⟩

end Sys2Proof.Machine
end

section
/-! The encoder and the decoder are inverse to each other (30_encoding.md section 4). -/
namespace Sys2Proof

/-- The decoder reads the two fields that the encoder joined, and a zero-extended operand passes its must-be-zero check. -/
theorem decode_encode (i : Instr) : decode (encode i) = .ok i := by
  cases i with
  | bpush byte =>
    rw [encode, decode, cmdOp_cmdWord, cmdImm_cmdWord]
    exact decodeBpush_eq_ok.2 ⟨extract_high_setWidth byte, by rw [extract_low_setWidth byte (by decide)]⟩
  | rdob idx =>
    rw [encode, decode, cmdOp_cmdWord, cmdImm_cmdWord]
    exact decodeRdob_eq_ok.2 ⟨extract_high_setWidth idx, by rw [extract_low_setWidth idx (by decide)]⟩
  | decw word =>
    rw [encode, decode, cmdOp_cmdWord, cmdImm_cmdWord]
    rfl
  | nop | trst | bclr | pblk | rdst | rdln => rfl

/-- Settles O1: each field is read back as it was written. -/
theorem decodeOfEncodeIsTheCommand : Obligations.DecodeOfEncodeIsTheCommand := decode_encode

/-- Settles O6: the decoder computes each of the nine words. -/
theorem wordsWrittenInTheSpecDecode : Obligations.WordsWrittenInTheSpecDecode :=
  ⟨rfl, rfl, rfl, rfl, rfl, rfl, rfl, rfl, rfl⟩

/-- A word is known by its opcode and its `imm`. -/
theorem cmdWord_eq_of_fields {w : Cmd} {op : BitVec 8} {imm : BitVec 32} (hop : cmdOp w = op) (himm : cmdImm w = imm) :
    cmdWord op imm = w := by
  rw [← hop, ← himm, cmdWord_fields]

/-- The check of the must-be-zero bits leaves an operand that extends to all of `imm`. -/
theorem encode_of_decode {w : Cmd} {i : Instr} (h : decode w = .ok i) : encode i = w := by
  obtain ⟨hop, himm, rfl⟩ | ⟨hop, himm, rfl⟩ | ⟨hop, himm, rfl⟩ | ⟨hop, hhigh, rfl⟩ | ⟨hop, himm, rfl⟩ | ⟨hop, rfl⟩ |
    ⟨hop, himm, rfl⟩ | ⟨hop, himm, rfl⟩ | ⟨hop, hhigh, rfl⟩ := decode_ok_cases h
  · exact cmdWord_eq_of_fields hop himm
  · exact cmdWord_eq_of_fields hop himm
  · exact cmdWord_eq_of_fields hop himm
  · exact cmdWord_eq_of_fields hop (setWidth_extract_of_high_zero (by decide) hhigh).symm
  · exact cmdWord_eq_of_fields hop himm
  · exact cmdWord_eq_of_fields hop rfl
  · exact cmdWord_eq_of_fields hop himm
  · exact cmdWord_eq_of_fields hop himm
  · exact cmdWord_eq_of_fields hop (setWidth_extract_of_high_zero (by decide) hhigh).symm

/-- Settles O2: the fields the decoder read are the whole word. -/
theorem encodeOfDecodeIsTheWord : Obligations.EncodeOfDecodeIsTheWord := fun _ _ => encode_of_decode

/-- A word is a command or it is refused. -/
theorem decode_ok_iff_not_refused (w : Cmd) : (∃ i, decode w = .ok i) ↔ ¬∃ e, decode w = .error e := by
  cases decode w <;> simp

end Sys2Proof
end

section
/-! The decoder and the rows of the opcode table (30_encoding.md R75). -/
namespace Sys2Proof

/-- The encoding of every command is a word of the row with its mnemonic. -/
theorem encode_matches_row : ∀ i : Instr, Laws.EncodeMatchesRow.Statement i
  | .nop => Laws.EncodeMatchesRow.nop
  | .trst => Laws.EncodeMatchesRow.trst
  | .bclr => Laws.EncodeMatchesRow.bclr
  | .bpush byte => Laws.EncodeMatchesRow.bpush byte
  | .pblk => Laws.EncodeMatchesRow.pblk
  | .decw word => Laws.EncodeMatchesRow.decw word
  | .rdst => Laws.EncodeMatchesRow.rdst
  | .rdln => Laws.EncodeMatchesRow.rdln
  | .rdob idx => Laws.EncodeMatchesRow.rdob idx

theorem opcodeTable_mnemonic_unique :
    ∀ r ∈ opcodeTable, ∀ r' ∈ opcodeTable, r.mnemonic = r'.mnemonic → r = r' := by decide

/-- A command's word is a word of each row with the command's mnemonic, for there is one such row. -/
theorem admits_of_decode {w : Cmd} {i : Instr} {r : OpcodeRow} (hr : r ∈ opcodeTable) (hd : decode w = .ok i)
    (hm : mnemonicOf i = r.mnemonic) : r.admits w = true := by
  obtain ⟨r', hr', hm', hadmits⟩ := encode_matches_row i
  rw [opcodeTable_mnemonic_unique r hr r' hr' (hm.symm.trans hm'.symm), ← encode_of_decode hd]
  exact hadmits

theorem and_cmdWord (w : Cmd) (op : BitVec 8) (imm : BitVec 32) :
    w &&& cmdWord op imm = cmdWord (cmdOp w &&& op) (cmdImm w &&& imm) := by
  conv_lhs => rw [← cmdWord_fields w]
  exact BitVec.and_append

/-- The row's commands are those of one constructor, whose operand is the low `n` bits of `imm`; the mask takes the opcode and
the bits above the operand (R68). -/
def OpcodeRow.HoldsCommandsOf (r : OpcodeRow) (op : BitVec 8) {n : Nat} (command : BitVec n → Instr) : Prop :=
  r.value = cmdWord op 0 ∧ r.mask = cmdWord (BitVec.allOnes 8) (BitVec.allOnes 32 <<< n) ∧
    ∀ b, encode (command b) = cmdWord op (b.setWidth 32) ∧ mnemonicOf (command b) = r.mnemonic

/-- Every row is of that form, with 0, 8, 32 or 9 operand bits. -/
theorem opcodeTable_holdsCommandsOf :
    ∀ r ∈ opcodeTable, ∃ (op : BitVec 8) (n : Nat) (command : BitVec n → Instr), r.HoldsCommandsOf op command := by
  have noOperand (op : BitVec 8) (b : BitVec 0) : cmdWord op 0 = cmdWord op (b.setWidth 32) := by
    rw [BitVec.of_length_zero (x := b)]
    rfl
  simp only [opcodeTable, List.forall_mem_cons, List.not_mem_nil, false_imp_iff, implies_true, and_true]
  exact ⟨⟨0x00, 0, fun _ => .nop, rfl, rfl, fun b => ⟨noOperand 0x00 b, rfl⟩⟩,
    ⟨0x01, 0, fun _ => .trst, rfl, rfl, fun b => ⟨noOperand 0x01 b, rfl⟩⟩,
    ⟨0x02, 0, fun _ => .bclr, rfl, rfl, fun b => ⟨noOperand 0x02 b, rfl⟩⟩,
    ⟨0x03, 8, .bpush, rfl, rfl, fun _ => ⟨rfl, rfl⟩⟩,
    ⟨0x04, 0, fun _ => .pblk, rfl, rfl, fun b => ⟨noOperand 0x04 b, rfl⟩⟩,
    ⟨0x05, 32, .decw, rfl, rfl, fun b => ⟨by rw [encode, BitVec.setWidth_eq], rfl⟩⟩,
    ⟨0x06, 0, fun _ => .rdst, rfl, rfl, fun b => ⟨noOperand 0x06 b, rfl⟩⟩,
    ⟨0x07, 0, fun _ => .rdln, rfl, rfl, fun b => ⟨noOperand 0x07 b, rfl⟩⟩,
    ⟨0x08, 9, .rdob, rfl, rfl, fun _ => ⟨rfl, rfl⟩⟩⟩

/-- An `imm` with no bit under the mask is its operand, zero-extended. -/
theorem imm_of_masked_zero {imm : BitVec 32} {n : Nat} (h : imm &&& (BitVec.allOnes 32 <<< n) = 0) :
    imm = (imm.setWidth n).setWidth 32 := by
  refine BitVec.eq_of_getLsbD_eq fun i hi => ?_
  by_cases hin : i < n
  · simp [hi, hin]
  · have mask : (BitVec.allOnes 32 <<< n).getLsbD i = true := by
      rw [BitVec.getLsbD_shiftLeft, BitVec.getLsbD_allOnes]
      simp [hi, hin, show i - n < 32 by omega]
    have bit : (imm &&& (BitVec.allOnes 32 <<< n)).getLsbD i = false := by rw [h]; exact BitVec.getLsbD_zero
    rw [BitVec.getLsbD_and, mask, Bool.and_true] at bit
    simp [hin, bit]

/-- A word of a row is the encoding of a command with the row's mnemonic. -/
theorem decode_of_admits {w : Cmd} {r : OpcodeRow} (hr : r ∈ opcodeTable) (h : r.admits w = true) :
    ∃ i, decode w = .ok i ∧ mnemonicOf i = r.mnemonic := by
  obtain ⟨op, n, command, hvalue, hmask, hcommand⟩ := opcodeTable_holdsCommandsOf r hr
  have fields : cmdWord (cmdOp w) (cmdImm w &&& (BitVec.allOnes 32 <<< n)) = cmdWord op 0 := by
    rw [← hvalue, ← eq_of_beq h, hmask, and_cmdWord, BitVec.and_allOnes]
  have hop : cmdOp w = op := by simpa using congrArg cmdOp fields
  have himm := imm_of_masked_zero (by simpa using congrArg cmdImm fields)
  obtain ⟨hencode, hmnemonic⟩ := hcommand ((cmdImm w).setWidth n)
  have whole := hencode.trans (cmdWord_eq_of_fields hop himm)
  exact ⟨_, (congrArg decode whole).symm.trans (decode_encode _), hmnemonic⟩

/-- Settles O3: a row's words are the encodings of its commands, and every command has its row. -/
theorem decoderAgreesWithTheOpcodeTable : Obligations.DecoderAgreesWithTheOpcodeTable := by
  refine ⟨fun w r hr => ⟨decode_of_admits hr, fun ⟨_, hd, hm⟩ => admits_of_decode hr hd hm⟩, fun w => ?_⟩
  constructor
  · rintro ⟨e, he⟩ r hr
    refine Bool.eq_false_iff.2 fun hadmits => ?_
    obtain ⟨i, hi, -⟩ := decode_of_admits hr hadmits
    rw [he] at hi
    cases hi
  · intro hnone
    by_contra hlegal
    obtain ⟨i, hd⟩ := (decode_ok_iff_not_refused w).2 hlegal
    obtain ⟨r, hr, hm, -⟩ := encode_matches_row i
    have hadmits := admits_of_decode hr hd hm.symm
    rw [hnone r hr] at hadmits
    cases hadmits

end Sys2Proof
end

section
/-! The decoder and the well-formedness check, which is written apart from it (30_encoding.md R68, R69). -/
namespace Sys2Proof

/-- No bit of `imm` is set from `n` up exactly when `imm` is below `2^n`. -/
theorem extract_high_eq_zero_iff (imm : BitVec 32) {n : Nat} (hn : n ≤ 32) :
    imm.extractLsb' n (32 - n) = 0 ↔ imm.toNat < 2 ^ n := by
  constructor
  · intro h
    rw [← setWidth_extract_of_high_zero hn h, BitVec.toNat_setWidth_of_le hn]
    exact BitVec.isLt _
  · intro h
    refine BitVec.eq_of_toNat_eq ?_
    rw [BitVec.extractLsb'_toNat, Nat.shiftRight_eq_div_pow, Nat.div_eq_of_lt h]
    rfl

/-- The operand's width depends on the number of the opcode alone. -/
theorem operandWidth_congr {op op' : BitVec 8} (h : op.toNat = op'.toNat) :
    Command.operandWidth op = Command.operandWidth op' :=
  congrArg Command.operandWidth (BitVec.eq_of_toNat_eq h)

theorem operandWidth_plain {op : BitVec 8} (h : op.toNat ∈ [0, 1, 2, 4, 6, 7]) :
    Command.operandWidth op = some 0 := by
  simp only [List.mem_cons, List.not_mem_nil, or_false] at h
  obtain h | h | h | h | h | h := h
  · exact operandWidth_congr (op' := 0) h
  · exact operandWidth_congr (op' := 1) h
  · exact operandWidth_congr (op' := 2) h
  · exact operandWidth_congr (op' := 4) h
  · exact operandWidth_congr (op' := 6) h
  · exact operandWidth_congr (op' := 7) h

theorem operandWidth_reserved {op : BitVec 8} (h : 9 ≤ op.toNat) : Command.operandWidth op = none := by
  rw [Command.operandWidth]
  split
  case h_10 => rfl
  all_goals omega

theorem wellFormed_eq_elim (c : Command) :
    c.wellFormed = (Command.operandWidth c.op).elim false fun n => decide (c.imm.toNat < 2 ^ n) := by
  rw [Command.wellFormed]
  cases Command.operandWidth c.op <;> rfl

theorem wellFormed_of_width {c : Command} {n : Nat} (h : Command.operandWidth c.op = some n) (hn : n ≤ 32) :
    c.wellFormed = true ↔ c.imm.extractLsb' n (32 - n) = 0 := by
  rw [wellFormed_eq_elim, h, extract_high_eq_zero_iff c.imm hn]
  exact decide_eq_true_iff

theorem wellFormed_of_reserved {c : Command} (h : Command.operandWidth c.op = none) : c.wellFormed = false := by
  rw [wellFormed_eq_elim, h]
  rfl

/-- Settles O4: for each operand form the check compares `imm` with the operand's width, the decoder looks at the bits
above it. -/
theorem decoderAcceptsTheWellFormedCommands : Obligations.DecoderAcceptsTheWellFormedCommands := by
  intro w
  obtain ⟨hop, hd⟩ | ⟨hop, i, hd⟩ | ⟨hop, hd⟩ | ⟨hop, hd⟩ | ⟨hop, hd⟩ := decode_forms w
  · rw [wellFormed_of_reserved (operandWidth_reserved hop)]
    simp [hd]
  · rw [wellFormed_of_width (operandWidth_plain hop) (by decide)]
    simp [hd, decodePlain_eq_ok, commandOf]
  · rw [wellFormed_of_width (n := 8) (operandWidth_congr (op' := 3) hop) (by decide)]
    simp [hd, decodeBpush_eq_ok, commandOf]
  · rw [wellFormed_of_width (n := 32) (operandWidth_congr (op' := 5) hop) (by decide)]
    simp [hd, BitVec.of_length_zero]
  · rw [wellFormed_of_width (n := 9) (operandWidth_congr (op' := 8) hop) (by decide)]
    simp [hd, decodeRdob_eq_ok, commandOf]

end Sys2Proof
end

section
/-! Every step keeps the invariants of the state (10_state.md R32). -/
namespace Sys2Proof.Machine

theorem inv_ilen {s : State} : s.Inv → s.ilen.toNat ≤ 512 := fun ⟨_, h, _⟩ => h

theorem inv_olen {s : State} : s.Inv → s.olen.toNat ≤ 416 := fun ⟨_, _, h, _⟩ => h

theorem inv_ibuf_wf {s : State} : s.Inv → s.ibuf.wf = true := fun ⟨_, _, _, _, h, _⟩ => h

theorem inv_obuf_wf {s : State} : s.Inv → s.obuf.wf = true := fun ⟨_, _, _, _, _, h, _⟩ => h

/-- A fault writes `FCODE` alone, with a code of 1 to 4. -/
theorem inv_afterFault {s : State} (f : InterfaceFault) (h : s.Inv) : (s.afterFault f).Inv := by
  obtain ⟨hcanonical, hilen, holen, hfcode, hbuffers⟩ := h
  exact ⟨hcanonical, hilen, holen, recordFault_le_four f hfcode, hbuffers⟩

/-- `BPUSH` with room grows `ILEN` to at most 512, and its byte has an index of the buffer. -/
theorem inv_bpush {s : State} (byte : Byte) (h : s.Inv) (hroom : s.ilen.toNat < 512) :
    State.Inv { s with ibuf := s.ibuf.write s.ilen.toNat byte, ilen := s.ilen + 1 } := by
  obtain ⟨hcanonical, -, holen, hfcode, hiwf, howf, hiwithin, howithin⟩ := h
  have hilen : (s.ilen + 1).toNat ≤ 512 := by
    rw [BitVec.toNat_add_of_lt (by omega : s.ilen.toNat + 1 < 2 ^ 10)]
    exact hroom
  exact ⟨hcanonical, hilen, holen, hfcode, Memory.wf_write _ byte hiwf, howf,
    Memory.within_write byte hiwithin hroom, howithin⟩

/-- A block that decodes leaves at most 7 bits for the carry and at most 416 bytes for `OBUF`. -/
theorem inv_commitBlock {s : State} {out : List Byte} {lo' : List Bool} (h : s.Inv)
    (hgood : processBlock s.loaded s.lo = .decoded out lo') : (s.commitBlock out lo').Inv := by
  obtain ⟨-, -, -, hfcode, hiwf, howf, hiwithin, howithin⟩ := h
  obtain ⟨hout, hlo', -⟩ := loaded_decoded_lengths hgood
  have holen : (s.commitBlock out lo').olen.toNat ≤ 416 := (commitBlock_olen_toNat s lo' hout).trans_le hout
  exact ⟨setLo_canonical s hlo', Nat.zero_le 512, holen, hfcode, hiwf, Memory.wf_writeBytes 0 out howf, hiwithin,
    Memory.within_writeBytes 0 out howithin (by simpa using hout)⟩

/-- Every command keeps the invariants: of the effects of R150, three clear registers, and the others stay in bounds. -/
theorem exec_keeps_inv {i : Instr} {s t : State} (hinv : s.Inv) (h : exec i s = .next t) : t.Inv := by
  obtain ⟨v, rfl⟩ | ⟨f, rfl⟩ | ⟨-, rfl⟩ | ⟨-, rfl⟩ | ⟨byte, -, hroom, rfl⟩ | ⟨-, -, -, -, rfl⟩ |
    ⟨out, lo', -, -, -, hgood, rfl⟩ := exec_next_cases h
  · exact hinv
  · exact inv_afterFault f hinv
  · obtain ⟨-, -, -, hkept⟩ := hinv
    exact ⟨Nat.one_pos, Nat.zero_le _, Nat.zero_le _, hkept⟩
  · obtain ⟨hcanonical, -, hkept⟩ := hinv
    exact ⟨hcanonical, Nat.zero_le _, hkept⟩
  · exact inv_bpush byte hinv hroom
  · obtain ⟨hcanonical, -, -, hkept⟩ := hinv
    exact ⟨hcanonical, Nat.zero_le _, Nat.zero_le _, hkept⟩
  · exact inv_commitBlock (s := s) hinv hgood

/-- Settles O52: every register is 0 and both buffers are empty. -/
theorem theInvariantsHoldAtReset : Obligations.TheInvariantsHoldAtReset := by
  unfold Obligations.TheInvariantsHoldAtReset
  decide

theorem inv_hardwareReset (s : State) : (hardwareReset s).Inv := theInvariantsHoldAtReset.1

/-- Settles O51: a step waits, resets, performs a command or refuses a word, and the port is in no invariant. -/
theorem everyStepKeepsTheInvariants : Obligations.EveryStepKeepsTheInvariants := by
  intro s t hinv hstep
  obtain ⟨-, e⟩ | ⟨rest, -, e⟩ | ⟨w, rest, i, -, -, e⟩ | ⟨w, rest, -, -, -, e⟩ := step_cases s <;> rw [e] at hstep
  · cases hstep
    exact hinv
  · cases hstep
    exact inv_hardwareReset _
  · exact exec_keeps_inv (s := { s with inputs := rest }) hinv hstep
  · cases hstep
    exact inv_afterFault (s := { s with inputs := rest }) .illegalCmd hinv

end Sys2Proof.Machine
end

section
/-! What a step does with each next input (42_commands.md R140, 60_exceptions.md R216). -/
namespace Sys2Proof.Machine

theorem step_of_idle {s : State} (h : s.inputs = []) : step s = .next s := by simp only [step, takeInput, h]

/-- Settles O8: with nothing issued the port answers that it is idle. -/
theorem withNothingIssuedTheBlockWaits : Obligations.WithNothingIssuedTheBlockWaits := fun _ => step_of_idle

/-- Settles O7: the word at the port is decoded, and its command or the one fault operation is performed. -/
theorem stepRunsTheDecodedCommand : Obligations.StepRunsTheDecodedCommand := by
  intro s w rest hin
  rw [step_of_command hin]
  exact ⟨fun i => perform_of_ok _, fun e => perform_of_error _⟩

end Sys2Proof.Machine
end

section
/-! Bytes at or above `ILEN` and `OLEN` have no influence (10_state.md R33, 93_implementation_defined.md U8): what a command
reads of a state is visible, and what it writes keeps two states visibly the same. -/
namespace Sys2Proof.Machine

/-- The same byte written at the first index where two buffers may differ makes them agree one byte further. -/
theorem Memory.agreeBelow_write {n : Nat} {m m' : Memory} (byte : Byte) (hm : m.wf = true) (hm' : m'.wf = true)
    (h : Memory.AgreeBelow n m m') : Memory.AgreeBelow (n + 1) (m.write n byte) (m'.write n byte) := by
  intro i hi
  by_cases hin : i = n
  · rw [hin, Memory.read_write_same n byte hm, Memory.read_write_same n byte hm']
  · rw [Memory.read_write_ne m byte hin, Memory.read_write_ne m' byte hin]
    exact h i (by omega)

/-- Two buffers agree on bytes written to both. -/
theorem Memory.agreeBelow_writeBytes {m m' : Memory} (out : List Byte) (hm : m.wf = true) (hm' : m'.wf = true) :
    Memory.AgreeBelow out.length (m.writeBytes 0 out) (m'.writeBytes 0 out) := by
  intro i hi
  rw [← Nat.zero_add i, Memory.read_writeBytes_inside 0 out hm hi, Memory.read_writeBytes_inside 0 out hm' hi]

namespace State.SameVisible

variable {s s' : State}

/-- The Leftover Bits are visible. -/
theorem lo (h : s.SameVisible s') : s.lo = s'.lo := by rw [State.lo, State.lo, h.loCnt, h.loReg]

/-- The loaded block is visible. -/
theorem loaded (h : s.SameVisible s') : s.loaded = s'.loaded := by
  rw [State.loaded, State.loaded, ← h.ilen]
  exact Memory.readBytes_congr fun i _ hi => h.ibuf i (by simpa using hi)

theorem answer (h : s.SameVisible s') (r : Rsp) : (s.answer r).SameVisible (s'.answer r) :=
  { h with rsps := congrArg (· ++ [r]) h.rsps }

theorem afterFault (h : s.SameVisible s') (f : InterfaceFault) : (s.afterFault f).SameVisible (s'.afterFault f) :=
  { h with
    fcode := congrArg (recordFault · f.code) h.fcode
    rsps := congrArg (· ++ [faultRsp f.code]) h.rsps }

theorem withInputs (h : s.SameVisible s') (rest : List Input) :
    State.SameVisible { s with inputs := rest } { s' with inputs := rest } :=
  { h with inputs := rfl }

/-- A hardware reset forgets everything but the port. -/
theorem hardwareReset (h : s.SameVisible s') : (hardwareReset s).SameVisible (hardwareReset s') where
  loCnt := rfl
  loReg := rfl
  ilen := rfl
  olen := rfl
  unc := rfl
  fcode := rfl
  inputs := h.inputs
  rsps := h.rsps
  ibuf := Memory.agreeBelow_zero _ _
  obuf := Memory.agreeBelow_zero _ _

theorem transferReset (h : s.SameVisible s') :
    State.SameVisible { s with loCnt := 0, loReg := 0, ilen := 0, olen := 0, unc := false }
      { s' with loCnt := 0, loReg := 0, ilen := 0, olen := 0, unc := false } :=
  { h with
    loCnt := rfl
    loReg := rfl
    ilen := rfl
    olen := rfl
    unc := rfl
    ibuf := Memory.agreeBelow_zero _ _
    obuf := Memory.agreeBelow_zero _ _ }

theorem blockCleared (h : s.SameVisible s') : State.SameVisible { s with ilen := 0 } { s' with ilen := 0 } :=
  { h with
    ilen := rfl
    ibuf := Memory.agreeBelow_zero _ _ }

theorem bytePushed (h : s.SameVisible s') (hinv : s.Inv) (hinv' : s'.Inv) (byte : Byte) (hroom : s.ilen.toNat < 512) :
    State.SameVisible { s with ibuf := s.ibuf.write s.ilen.toNat byte, ilen := s.ilen + 1 }
      { s' with ibuf := s'.ibuf.write s'.ilen.toNat byte, ilen := s'.ilen + 1 } := by
  refine { h with ilen := congrArg (· + 1) h.ilen, ibuf := ?_ }
  show Memory.AgreeBelow (s.ilen + 1).toNat _ _
  rw [BitVec.toNat_add_of_lt (by omega : s.ilen.toNat + 1 < 2 ^ 10), ← h.ilen]
  exact Memory.agreeBelow_write byte (inv_ibuf_wf hinv) (inv_ibuf_wf hinv') h.ibuf

theorem blockRejected (h : s.SameVisible s') : s.rejectBlock.SameVisible s'.rejectBlock :=
  { h with
    ilen := rfl
    olen := rfl
    unc := rfl
    ibuf := Memory.agreeBelow_zero _ _
    obuf := Memory.agreeBelow_zero _ _ }

theorem blockCommitted (h : s.SameVisible s') (hinv : s.Inv) (hinv' : s'.Inv) {out : List Byte} (lo' : List Bool)
    (hout : out.length ≤ 416) : (s.commitBlock out lo').SameVisible (s'.commitBlock out lo') := by
  refine { h with loCnt := rfl, loReg := rfl, ilen := rfl, olen := rfl, unc := rfl
                  ibuf := Memory.agreeBelow_zero _ _, obuf := ?_ }
  rw [commitBlock_olen_toNat s lo' hout]
  exact Memory.agreeBelow_writeBytes out (inv_obuf_wf hinv) (inv_obuf_wf hinv')

end State.SameVisible

/-- Both outcomes are next states that are visibly the same. -/
def Result.SameVisible (r r' : Result) : Prop := ∃ t t', r = .next t ∧ r' = .next t' ∧ t.SameVisible t'

theorem Result.sameVisible_next {t t' : State} (h : t.SameVisible t') : Result.SameVisible (.next t) (.next t') :=
  ⟨t, t', rfl, rfl, h⟩

theorem sameVisible_respond {s s' : State} {v v' : BitVec 32} (hv : v = v') (h : s.SameVisible s') :
    Result.SameVisible (respond v s) (respond v' s') :=
  hv ▸ Result.sameVisible_next (h.answer (okRsp v))

theorem sameVisible_execBpush (byte : Byte) {s s' : State} (hinv : s.Inv) (hinv' : s'.Inv) (h : s.SameVisible s') :
    Result.SameVisible (execBpush byte s) (execBpush byte s') := by
  obtain hroom | hfull := (inv_ilen hinv).lt_or_eq
  · rw [execBpush_of_room byte hroom, execBpush_of_room byte (h.ilen ▸ hroom)]
    exact sameVisible_respond rfl (h.bytePushed hinv hinv' byte hroom)
  · rw [execBpush_of_full byte hfull, execBpush_of_full byte (h.ilen ▸ hfull)]
    exact Result.sameVisible_next (h.afterFault .ibufOverflow)

/-- `PBLK` presents the same block and the same carry to `process_block` on both sides. -/
theorem sameVisible_execPblk {s s' : State} (hinv : s.Inv) (hinv' : s'.Inv) (h : s.SameVisible s') :
    Result.SameVisible (execPblk s) (execPblk s') := by
  by_cases h4 : s.ilen.toNat % 4 = 0
  · have h4' : s'.ilen.toNat % 4 = 0 := h.ilen ▸ h4
    obtain hbad | ⟨out, lo', hgood⟩ := loaded_uncorrectable_or_decoded h4 (inv_ilen hinv)
    · have hbad' : processBlock s'.loaded s'.lo = .uncorrectable := by rw [← h.loaded, ← h.lo, hbad]
      rw [execPblk_of_uncorrectable h4 hbad, execPblk_of_uncorrectable h4' hbad']
      exact sameVisible_respond rfl h.blockRejected
    · have hgood' : processBlock s'.loaded s'.lo = .decoded out lo' := by rw [← h.loaded, ← h.lo, hgood]
      obtain ⟨hout, -, -⟩ := loaded_decoded_lengths hgood
      rw [execPblk_of_decoded h4 hgood, execPblk_of_decoded h4' hgood']
      exact sameVisible_respond rfl (h.blockCommitted hinv hinv' lo' hout)
  · rw [execPblk_of_badLength h4, execPblk_of_badLength (h.ilen ▸ h4)]
    exact Result.sameVisible_next (h.afterFault .badLength)

/-- `RDOB` reads below `OLEN` only. -/
theorem sameVisible_execRdob (idx : BitVec 9) {s s' : State} (hinv : s.Inv) (hinv' : s'.Inv) (h : s.SameVisible s') :
    Result.SameVisible (execRdob idx s) (execRdob idx s') := by
  by_cases hidx : idx.toNat < s.olen.toNat
  · rw [execRdob_of_readable (inv_olen hinv) hidx, execRdob_of_readable (inv_olen hinv') (h.olen ▸ hidx)]
    exact sameVisible_respond (congrArg byteData (h.obuf _ hidx)) h
  · have hbeyond := Nat.le_of_not_lt hidx
    rw [execRdob_of_beyond hbeyond, execRdob_of_beyond (h.olen ▸ hbeyond)]
    exact Result.sameVisible_next (h.afterFault .badIndex)

theorem sameVisible_exec (i : Instr) {s s' : State} (hinv : s.Inv) (hinv' : s'.Inv) (h : s.SameVisible s') :
    Result.SameVisible (exec i s) (exec i s') := by
  cases i with
  | nop => exact sameVisible_respond rfl h
  | trst => exact sameVisible_respond rfl h.transferReset
  | bclr => exact sameVisible_respond rfl h.blockCleared
  | bpush byte => exact sameVisible_execBpush byte hinv hinv' h
  | pblk => exact sameVisible_execPblk hinv hinv' h
  | decw word => exact sameVisible_respond rfl h
  | rdst => exact sameVisible_respond (by rw [h.unc, h.fcode, h.loCnt, h.loReg]) h
  | rdln => exact sameVisible_respond (by rw [h.ilen, h.olen]) h
  | rdob idx => exact sameVisible_execRdob idx hinv hinv' h

/-- A command word is illegal on both sides or it is the same command on both. -/
theorem sameVisible_perform (w : Cmd) {s s' : State} (hinv : s.Inv) (hinv' : s'.Inv) (h : s.SameVisible s') :
    Result.SameVisible (perform w s) (perform w s') := by
  cases hd : decode w with
  | ok i =>
    rw [perform_of_ok s hd, perform_of_ok s' hd]
    exact sameVisible_exec i hinv hinv' h
  | error e =>
    rw [perform_of_error s hd, perform_of_error s' hd]
    exact Result.sameVisible_next (h.afterFault .illegalCmd)

/-- Two states that are visibly the same have the same next input, and step to states that are visibly the same. -/
theorem sameVisible_step {s s' : State} (hinv : s.Inv) (hinv' : s'.Inv) (h : s.SameVisible s') :
    Result.SameVisible (step s) (step s') := by
  cases hin : s.inputs with
  | nil =>
    rw [step_of_idle hin, step_of_idle (h.inputs ▸ hin)]
    exact Result.sameVisible_next h
  | cons input rest =>
    cases input with
    | command w =>
      rw [step_of_command hin, step_of_command (h.inputs ▸ hin)]
      exact sameVisible_perform w (s := { s with inputs := rest }) (s' := { s' with inputs := rest }) hinv hinv'
        (h.withInputs rest)
    | hardwareReset =>
      rw [step_of_hardwareReset hin, step_of_hardwareReset (h.inputs ▸ hin)]
      exact Result.sameVisible_next (h.withInputs rest).hardwareReset

/-- Settles O54: the step is the same on both sides, and it has one outcome. -/
theorem unreadableBytesHaveNoInfluence : Obligations.UnreadableBytesHaveNoInfluence := by
  intro s s' t hinv hinv' h hstep
  obtain ⟨t₁, t', hs, hs', ht⟩ := sameVisible_step hinv hinv' h
  obtain rfl := Host.Outcome.next.inj (hs.symm.trans hstep)
  exact ⟨t', hs', ht⟩

end Sys2Proof.Machine
end

section
/-! What no command and no step touches but its writers (42_commands.md R150, 20_memory.md R40, 10_state.md R23). -/
namespace Sys2Proof.Machine

/-- Settles O20: the seven effects a command can have, each against the table. -/
theorem eachFieldChangesOnlyByItsWriters : Obligations.EachFieldChangesOnlyByItsWriters := by
  intro i s t h
  obtain ⟨v, rfl⟩ | ⟨f, rfl⟩ | ⟨rfl, rfl⟩ | ⟨rfl, rfl⟩ | ⟨byte, rfl, -, rfl⟩ | ⟨rfl, -, -, -, rfl⟩ |
    ⟨out, lo', rfl, -, -, -, rfl⟩ := exec_next_cases h <;> simp

/-- A command leaves the port's inputs alone. -/
theorem exec_inputs {i : Instr} {s t : State} (h : exec i s = .next t) : t.inputs = s.inputs := by
  obtain ⟨-, -, -, -, -, -, hinputs, -⟩ := eachFieldChangesOnlyByItsWriters i s t h
  exact hinputs

/-- Settles O21: only `BPUSH` and a `PBLK` whose block decodes store bytes, and a store leaves every other byte alone. -/
theorem bytesOutsideTheStoreReadAsBefore : Obligations.BytesOutsideTheStoreReadAsBefore := by
  intro i s t h
  obtain ⟨v, rfl⟩ | ⟨f, rfl⟩ | ⟨-, rfl⟩ | ⟨-, rfl⟩ | ⟨byte, rfl, hroom, rfl⟩ | ⟨-, -, -, -, rfl⟩ |
    ⟨out, lo', rfl, h4, -, hgood, rfl⟩ := exec_next_cases h
  · exact ⟨fun _ _ => rfl, fun _ _ => rfl⟩
  · exact ⟨fun _ _ => rfl, fun _ _ => rfl⟩
  · exact ⟨fun _ _ => rfl, fun _ _ => rfl⟩
  · exact ⟨fun _ _ => rfl, fun _ _ => rfl⟩
  · exact ⟨fun a ha => Memory.read_write_ne _ byte fun hat => ha byte rfl ⟨hroom, hat⟩, fun _ _ => rfl⟩
  · exact ⟨fun _ _ => rfl, fun _ _ => rfl⟩
  · refine ⟨fun _ _ => rfl, fun a ha => Memory.read_writeBytes_outside _ 0 out (.inr ?_)⟩
    rw [Nat.zero_add]
    exact ha rfl h4 out lo' hgood

/-- A command that changes the carry is `TRST`, or a `PBLK` whose block decoded (R23). -/
theorem carry_writer {i : Instr} {s t : State} (h : exec i s = .next t)
    (hcarry : t.loCnt ≠ s.loCnt ∨ t.loReg ≠ s.loReg) :
    i = .trst ∨
      (i = .pblk ∧ s.ilen.toNat % 4 = 0 ∧ ∃ out lo', processBlock s.loaded s.lo = .decoded out lo') := by
  obtain ⟨v, rfl⟩ | ⟨f, rfl⟩ | ⟨hi, -⟩ | ⟨-, rfl⟩ | ⟨byte, -, -, rfl⟩ | ⟨-, -, -, -, rfl⟩ |
    ⟨out, lo', hi, h4, -, hgood, -⟩ := exec_next_cases h
  · simp at hcarry
  · simp at hcarry
  · exact .inl hi
  · simp at hcarry
  · simp at hcarry
  · simp at hcarry
  · exact .inr ⟨hi, h4, out, lo', hgood⟩

/-- Settles O29: a step that waits or refuses a word keeps the carry, so the step was a reset or a command that writes it. -/
theorem theCarryChangesOnlyBySuccessOrReset : Obligations.TheCarryChangesOnlyBySuccessOrReset := by
  intro s t hstep hcarry
  obtain ⟨-, e⟩ | ⟨rest, hin, -⟩ | ⟨w, rest, i, hin, hd, e⟩ | ⟨w, rest, -, -, -, e⟩ := step_cases s
  · rw [e] at hstep
    cases hstep
    simp at hcarry
  · exact .inl ⟨rest, hin⟩
  · rw [e] at hstep
    obtain rfl | ⟨rfl, h4, hgood⟩ := carry_writer (s := { s with inputs := rest }) hstep hcarry
    · exact .inr ⟨w, rest, hin, .inl hd⟩
    · exact .inr ⟨w, rest, hin, .inr ⟨hd, h4, hgood⟩⟩
  · rw [e] at hstep
    cases hstep
    simp at hcarry

/-- A block that decodes adds 26 bits per word and gives off 8 per byte, so it keeps the number of Leftover Bits even or
odd. -/
theorem decoded_rest_parity {s : State} {out : List Byte} {lo' : List Bool}
    (h : processBlock s.loaded s.lo = .decoded out lo') : lo'.length % 2 = s.loCnt.toNat % 2 := by
  obtain ⟨hsum, -, -⟩ := processBlock_decoded_lengths (lo_length_le s) h
  rw [lo_length] at hsum
  omega

theorem exec_keeps_carryEven {i : Instr} {s t : State} (heven : s.CarryEven) (h : exec i s = .next t) : t.CarryEven := by
  obtain ⟨v, rfl⟩ | ⟨f, rfl⟩ | ⟨-, rfl⟩ | ⟨-, rfl⟩ | ⟨byte, -, -, rfl⟩ | ⟨-, -, -, -, rfl⟩ |
    ⟨out, lo', -, -, -, hgood, rfl⟩ := exec_next_cases h
  · exact heven
  · exact heven
  · rfl
  · exact heven
  · exact heven
  · exact heven
  · obtain ⟨-, hlo', -⟩ := loaded_decoded_lengths hgood
    show (s.setLo lo').loCnt.toNat % 2 = 0
    rw [setLo_loCnt_toNat s hlo', decoded_rest_parity hgood]
    exact heven

/-- Settles O53: of all steps only the reset, `TRST` and `PBLK` write `LO_CNT`; the first two clear it. -/
theorem everyStepKeepsTheCarryEven : Obligations.EveryStepKeepsTheCarryEven := by
  intro s t heven hstep
  obtain ⟨-, e⟩ | ⟨rest, -, e⟩ | ⟨w, rest, i, -, -, e⟩ | ⟨w, rest, -, -, -, e⟩ := step_cases s <;> rw [e] at hstep
  · cases hstep
    exact heven
  · cases hstep
    rfl
  · exact exec_keeps_carryEven (s := { s with inputs := rest }) heven hstep
  · cases hstep
    exact heven

/-- Settles O9: the reset is one update; every other step keeps an `FCODE` that is not 0. -/
theorem hardwareResetLeavesTheResetValues : Obligations.HardwareResetLeavesTheResetValues := by
  refine ⟨fun s rest hin => ⟨_, step_of_hardwareReset hin, rfl, rfl, rfl, rfl, rfl, rfl, rfl, rfl⟩,
    fun s t hstep hrecorded hclear => ?_, rfl, rfl, rfl, rfl, rfl, rfl⟩
  obtain ⟨hsticky, -⟩ := fcodeIsStickyAndFirstWins
  by_contra hnoReset
  exact hrecorded ((hsticky s t hstep hrecorded (not_exists.1 hnoReset)).symm.trans hclear)

end Sys2Proof.Machine
end

section
/-! Completion, and the commands that only read (42_commands.md R140, 20_memory.md R46, 43_host_contract.md R178). -/
namespace Sys2Proof.Machine

/-- A command that fails its own check meets the one fault operation. -/
theorem exec_of_not_admits {i : Instr} {s : State} (hinv : s.Inv) (h : ¬s.Admits i) :
    ∃ f, exec i s = .next (s.afterFault f) := by
  obtain ⟨f, hf⟩ := cause_of_not_admits hinv (decode_encode i) h
  exact ⟨f, (perform_of_ok s (decode_encode i)).symm.trans (perform_of_cause hf)⟩

/-- A command that answers without a fault keeps `FCODE`. -/
theorem fcode_of_okRsp {i : Instr} {s t : State} {v : BitVec 32} (h : exec i s = .next t)
    (hrsps : t.rsps = s.rsps ++ [okRsp v]) : t.fcode = s.fcode := by
  obtain ⟨f, rfl⟩ | ⟨-, -, hkept⟩ := exec_faults_or_keeps_fcode h
  · exact absurd (response_unique hrsps rfl) (okRsp_ne_faultRsp v f.code)
  · exact hkept

/-- Settles O27: a command that passes its check answers `okRsp`, one that does not answers `faultRsp`. -/
theorem onlyABrokenCheckFaults : Obligations.OnlyABrokenCheckFaults := by
  intro i s hinv
  by_cases hadmits : s.Admits i
  · obtain ⟨t, v, hexec, hrsps⟩ := exec_of_admits hinv hadmits
    exact ⟨t, okRsp v, hexec, hrsps, fun _ => ⟨rflt_okRsp v, fcode_of_okRsp hexec hrsps⟩, absurd hadmits⟩
  · obtain ⟨f, hexec⟩ := exec_of_not_admits hinv hadmits
    exact ⟨_, faultRsp f.code, hexec, rfl, fun h => absurd h hadmits, fun _ => rflt_faultRsp f.code⟩

/-- Settles O22: a command answers whether it passes its check or not. -/
theorem everyCommandCompletesWithOneResponse : Obligations.EveryCommandCompletesWithOneResponse := by
  intro i s hinv
  obtain ⟨t, r, hexec, hrsps, -⟩ := onlyABrokenCheckFaults i s hinv
  exact ⟨t, r, hexec, hrsps, exec_inputs hexec⟩

/-- Settles O23: waiting, the reset and a refused word give a next state at once, and every command completes. -/
theorem theMachineNeverStops : Obligations.TheMachineNeverStops := by
  intro s hinv
  obtain ⟨-, e⟩ | ⟨rest, -, e⟩ | ⟨w, rest, i, -, -, e⟩ | ⟨w, rest, -, -, -, e⟩ := step_cases s
  · exact ⟨_, e⟩
  · exact ⟨_, e⟩
  · obtain ⟨t, -, hexec, -⟩ := everyCommandCompletesWithOneResponse i { s with inputs := rest } hinv
    exact ⟨t, e.trans hexec⟩
  · exact ⟨_, e⟩

/-- The four reading commands answer a value of the state and do nothing else; the value does not depend on the responses
given so far. -/
theorem exec_read {i : Instr} {s : State} (hinv : s.Inv) (hadmits : s.Admits i)
    (hread : i = .rdst ∨ i = .rdln ∨ (∃ word, i = .decw word) ∨ ∃ idx, i = .rdob idx) :
    ∃ v, ∀ rs, exec i { s with rsps := rs } = .next { s with rsps := rs ++ [okRsp v] } := by
  obtain rfl | rfl | ⟨word, rfl⟩ | ⟨idx, rfl⟩ := hread
  · exact ⟨statusWord s.unc s.fcode s.loCnt s.loReg, fun _ => rfl⟩
  · exact ⟨lengthWord s.ilen s.olen, fun _ => rfl⟩
  · exact ⟨decodeData word, fun _ => rfl⟩
  · exact ⟨byteData (s.obuf.read idx.toNat), fun rs =>
      execRdob_of_readable (s := { s with rsps := rs }) (inv_olen hinv) hadmits⟩

/-- Settles O28: the value read is the same whatever was answered before. -/
theorem readsHaveNoSideEffect : Obligations.ReadsHaveNoSideEffect := by
  intro i s hinv hadmits hread
  obtain ⟨v, hexec⟩ := exec_read hinv hadmits hread
  exact ⟨okRsp v, hexec s.rsps, hexec _⟩

end Sys2Proof.Machine
end

section
/-! Which words `decode_word` accepts (40_codec.md R112, R117): the syndrome and the overall parity decide. -/
namespace Sys2Proof.Machine

/-- Flipping one position adds its number to the syndrome (R63). -/
theorem syndrome_flip (w : Word) {p : Nat} (hp : p < 32) :
    syndrome (parity (w ^^^ 1#32 <<< p)) = syndrome (parity w) ^^^ BitVec.ofNat 5 (p + 1) := by
  rw [syndrome_xor, syndrome_oneHot hp]

/-- Flipping one position turns the overall parity over (R63). -/
theorem overall_flip (w : Word) {p : Nat} (hp : p < 32) : (parity (w ^^^ 1#32 <<< p)).p5 = !(parity w).p5 := by
  rw [overall_xor, overall_oneHot hp]
  cases (parity w).p5 <;> rfl

/-- A candidate position that is not 0 is the number of the position that CORRECT flips. -/
theorem candidate_number {e : BitVec 5} (he : e ≠ 0) : BitVec.ofNat 5 (e.toNat - 1 + 1) = e := by
  have hpos : e.toNat ≠ 0 := fun h => he (BitVec.eq_of_toNat_eq h)
  rw [Nat.sub_add_cancel (Nat.one_le_iff_ne_zero.2 hpos), BitVec.ofNat_toNat, BitVec.setWidth_eq]

theorem corrected_of_syndrome_ne {w : Word} (he : syndrome (parity w) ≠ 0) :
    corrected w = w ^^^ 1#32 <<< ((syndrome (parity w)).toNat - 1) :=
  correct_of_ne w he

/-- The residual test never fires (R112): the flip takes the whole syndrome away. -/
theorem syndrome_corrected (w : Word) : syndrome (parity (corrected w)) = 0 := by
  by_cases he : syndrome (parity w) = 0
  · rw [corrected_of_syndrome_zero he, he]
  · rw [corrected_of_syndrome_ne he, syndrome_flip w (by omega), candidate_number he, BitVec.xor_self]
    rfl

/-- The corrected word is accepted on its overall parity, which the flip turns over. -/
theorem verify_corrected_iff (w : Word) :
    verify (corrected w) = true ↔ (syndrome (parity w) = 0 ↔ (parity w).p5 = true) := by
  rw [verify_iff, and_iff_left (syndrome_corrected w)]
  by_cases he : syndrome (parity w) = 0
  · rw [corrected_of_syndrome_zero he, iff_true_left he]
  · rw [corrected_of_syndrome_ne he, overall_flip w (by omega), iff_false_left he]
    simp

theorem decodeWord_eq_none_iff (w : Word) :
    decodeWord w = none ↔ ¬(syndrome (parity w) = 0 ↔ (parity w).p5 = true) := by
  rw [← verify_corrected_iff, Bool.not_eq_true]
  refine ⟨fun h => ?_, decodeWord_of_not_verify⟩
  by_contra hverify
  rw [decodeWord_of_verify (eq_true_of_ne_false hverify)] at h
  cases h

/-- A word that is not refused decodes to the payload of the corrected word. -/
theorem decodeWord_of_agree {w : Word} (h : syndrome (parity w) = 0 ↔ (parity w).p5 = true) :
    decodeWord w = some (extract (corrected w)) :=
  decodeWord_of_verify ((verify_corrected_iff w).2 h)

/-- Settles O34: a word decodes exactly when a zero syndrome goes with even overall parity. -/
theorem theFourCasesOfAReceivedWord : Obligations.TheFourCasesOfAReceivedWord := by
  intro w
  refine ⟨syndrome_corrected w, fun he hp => ?_, fun he hp => ?_, fun he hp => ?_, fun he hp => ?_⟩
  · rw [decodeWord_of_agree (iff_of_true he hp), corrected_of_syndrome_zero he]
  · rw [decodeWord_of_agree (iff_of_false he (Bool.eq_false_iff.1 hp)), corrected_of_syndrome_ne he]
  · exact (decodeWord_eq_none_iff w).2 fun h => Bool.eq_false_iff.1 hp (h.1 he)
  · exact (decodeWord_eq_none_iff w).2 fun h => he (h.2 hp)

/-- To turn a flag over is to turn over whether a proposition agrees with it. -/
theorem not_iff_not_bool (P : Prop) (b : Bool) : ¬(P ↔ (!b) = true) ↔ ¬¬(P ↔ b = true) := by
  cases b <;> simp

/-- Settles O39: position 31 has number 0, so the flip keeps the syndrome and turns the overall parity over. -/
theorem position31DecidesAcceptance : Obligations.Position31DecidesAcceptance := by
  intro w
  have hsyndrome : syndrome (parity (w ^^^ 1#32 <<< 31)) = syndrome (parity w) :=
    (syndrome_flip w (by decide)).trans (BitVec.xor_zero)
  rw [ne_eq, decodeWord_eq_none_iff, decodeWord_eq_none_iff, hsyndrome, overall_flip w (by decide)]
  exact not_iff_not_bool _ _

end Sys2Proof.Machine
end

section
/-! Errors in a valid codeword (40_codec.md R108 to R111). -/
namespace Sys2Proof.Machine

/-- Two positions have the same number only if they are the same. -/
theorem positionNumber_injective {p q : Nat} (hp : p < 32) (hq : q < 32)
    (h : BitVec.ofNat 5 (p + 1) = BitVec.ofNat 5 (q + 1)) : p = q := by
  have numbers : (p + 1) % 32 = (q + 1) % 32 := by simpa using congrArg BitVec.toNat h
  omega

variable {c : Word}

theorem decodeWord_valid (hc : validCodeword c = true) : decodeWord c = some (extract c) := by
  obtain ⟨he, hp⟩ := (validCodeword_iff c).1 hc
  rw [decodeWord_of_agree (iff_of_true he hp), corrected_of_syndrome_zero he]

/-- A single error leaves its own number as the syndrome, and odd overall parity. -/
theorem singleError (hc : validCodeword c = true) {p : Nat} (hp : p < 32) :
    syndrome (parity (c ^^^ 1#32 <<< p)) = BitVec.ofNat 5 (p + 1) ∧ (parity (c ^^^ 1#32 <<< p)).p5 = false := by
  obtain ⟨he, hodd⟩ := (validCodeword_iff c).1 hc
  rw [syndrome_flip c hp, overall_flip c hp, he, hodd]
  exact ⟨BitVec.zero_xor, rfl⟩

/-- The number of a position below 31 leads CORRECT back to that position. -/
theorem corrected_singleError (hc : validCodeword c = true) {p : Nat} (hp : p < 31) : corrected (c ^^^ 1#32 <<< p) = c := by
  obtain ⟨he, -⟩ := singleError hc (by omega : p < 32)
  have hnumber : (BitVec.ofNat 5 (p + 1)).toNat = p + 1 := by
    rw [BitVec.toNat_ofNat, Nat.mod_eq_of_lt (by omega)]
  have hne : BitVec.ofNat 5 (p + 1) ≠ 0 := fun h => by simp [h] at hnumber
  rw [corrected, he, correct_of_ne _ hne, hnumber, Nat.add_sub_cancel, BitVec.xor_assoc, BitVec.xor_self, BitVec.xor_zero]

/-- Settles O35: the syndrome of a single error is its position's number, which is 0 for position 31 alone. -/
theorem singleErrorsAreCorrectedButForPosition31 : Obligations.SingleErrorsAreCorrectedButForPosition31 := by
  intro c hc
  refine ⟨decodeWord_valid hc, fun p hp => ?_, ?_⟩
  · obtain ⟨he, hodd⟩ := singleError hc (by omega : p < 32)
    have hne : syndrome (parity (c ^^^ 1#32 <<< p)) ≠ 0 := fun h =>
      absurd (positionNumber_injective (by omega) (by decide : 31 < 32) (he.symm.trans h)) (by omega)
    rw [decodeWord_of_agree (iff_of_false hne (Bool.eq_false_iff.1 hodd)), corrected_singleError hc hp]
  · obtain ⟨he, hodd⟩ := singleError hc (by decide : 31 < 32)
    exact (decodeWord_eq_none_iff _).2 fun h => Bool.eq_false_iff.1 hodd (h.1 he)

/-- Settles O36: two errors restore the overall parity, and their two different numbers leave a syndrome. -/
theorem doubleErrorsAreUncorrectable : Obligations.DoubleErrorsAreUncorrectable := by
  intro c hc p hp q hq hpq
  obtain ⟨he, hodd⟩ := singleError hc hp
  refine (decodeWord_eq_none_iff _).2 fun h => hpq ?_
  rw [syndrome_flip _ hq, overall_flip _ hq, he, hodd] at h
  exact positionNumber_injective hp hq (BitVec.xor_eq_zero_iff.1 (h.2 rfl))

end Sys2Proof.Machine
end

section
/-! The reference encoder (40_codec.md R107, R114): it sets each check from the payload, and the payload and the six parities
determine a codeword. -/
namespace Sys2Proof.Machine

theorem validCodeword_iff_parityBits (c : Word) : validCodeword c = true ↔ ∀ k < 6, parityBit c k = true := by
  rw [validCodeword, beq_iff_eq, parity, ParityVector.mk.injEq]
  constructor
  · rintro ⟨h0, h1, h2, h3, h4, h5⟩ k hk
    interval_cases k <;> assumption
  · exact fun h => ⟨h 0 (by decide), h 1 (by decide), h 2 (by decide), h 3 (by decide), h 4 (by decide), h 5 (by decide)⟩

/-- The column of a position holds the locating checks that are bits of its number (R62, R63). -/
theorem parityBit_oneHot {p k : Nat} (hp : p < 32) (hk : k < 5) :
    parityBit (1#32 <<< p) k = !(BitVec.ofNat 5 (p + 1)).getLsbD k := by
  rw [← syndrome_oneHot hp, syndrome_getLsbD _ hk, Bool.not_not, parity_get _ k (by omega)]

/-- The number of the position that check `k` sets is `2^k`, so its column holds check `k` and no other locating check. -/
theorem locatingCheck_column {k j : Nat} (hk : k < 5) (hj : j < 5) :
    parityBit (1#32 <<< (2 ^ k - 1)) j = decide (j ≠ k) := by
  have numbers : ∀ k < 5, 2 ^ k - 1 < 32 ∧ ∀ j < 5, (BitVec.ofNat 5 (2 ^ k - 1 + 1)).getLsbD j = decide (j = k) := by decide
  obtain ⟨hp, hbit⟩ := numbers k hk
  rw [parityBit_oneHot hp hj, hbit j hj, decide_not]

/-- The number of position 31 is 0, so its column holds no locating check. -/
theorem overallCheck_column {j : Nat} (hj : j < 5) : parityBit (1#32 <<< 31) j = true := by
  rw [parityBit_oneHot (by decide) hj, show BitVec.ofNat 5 (31 + 1) = 0#5 from rfl, BitVec.getLsbD_zero]
  rfl

theorem checkBit_of_even {w : Word} {k : Nat} (pos : Nat) (h : parityBit w k = true) : checkBit w k pos = 0 := if_pos h

theorem checkBit_of_odd {w : Word} {k : Nat} (pos : Nat) (h : parityBit w k = false) : checkBit w k pos = 1#32 <<< pos :=
  if_neg (Bool.eq_false_iff.1 h)

/-- A check bit that is set adds its position's column. -/
theorem parityBit_checkBit (w : Word) (k pos j : Nat) :
    parityBit (checkBit w k pos) j = (parityBit w k || parityBit (1#32 <<< pos) j) := by
  have zero : parityBit (0#32) j = true := by rw [parityBit, BitVec.zero_and]; rfl
  cases h : parityBit w k with
  | false => rw [checkBit_of_odd pos h, Bool.false_or]
  | true =>
    rw [checkBit_of_even pos h, Bool.true_or]
    exact zero

/-- The five checks by their numbers: check `k` has position `2^k - 1` (R114). -/
theorem placeChecks_eq (w : Word) : placeChecks w = w ^^^ checkBit w 0 (2 ^ 0 - 1) ^^^ checkBit w 1 (2 ^ 1 - 1) ^^^
    checkBit w 2 (2 ^ 2 - 1) ^^^ checkBit w 3 (2 ^ 3 - 1) ^^^ checkBit w 4 (2 ^ 4 - 1) := rfl

theorem referenceEncode_eq (p : BitVec 26) :
    referenceEncode p = placeChecks (placePayload p) ^^^ checkBit (placeChecks (placePayload p)) 5 31 := rfl

/-- Each locating check that was odd is made even by its own check bit, and no other check bit concerns it. -/
theorem parityBit_placeChecks (w : Word) {j : Nat} (hj : j < 5) : parityBit (placeChecks w) j = true := by
  have own (k : Nat) (hk : k < 5) : parityBit (checkBit w k (2 ^ k - 1)) j = (parityBit w k || decide (j ≠ k)) := by
    rw [parityBit_checkBit, locatingCheck_column hk hj]
  rw [placeChecks_eq, parityBit_xor, parityBit_xor, parityBit_xor, parityBit_xor, parityBit_xor,
    own 0 (by decide), own 1 (by decide), own 2 (by decide), own 3 (by decide), own 4 (by decide)]
  interval_cases j <;> simp

theorem parityBit_referenceEncode (p : BitVec 26) : ∀ k < 6, parityBit (referenceEncode p) k = true := by
  intro k hk
  rw [referenceEncode_eq, parityBit_xor, parityBit_checkBit]
  obtain hk | rfl := Nat.lt_succ_iff_lt_or_eq.1 hk
  · rw [parityBit_placeChecks _ hk, overallCheck_column hk, Bool.or_true]
    rfl
  · rw [show parityBit (1#32 <<< 31) 5 = false from overall_oneHot (by decide), Bool.or_false, beq_self_eq_true]

theorem payload_xor (a b : Word) : payload (a ^^^ b) = payload a ^^^ payload b := by
  simp only [payload, BitVec.extractLsb'_xor, ← BitVec.xor_append]

theorem payload_oneHot_check : ∀ pos ∈ Config.checkPositions, payload (1#32 <<< pos) = 0 := by decide

theorem payload_checkBit (w : Word) (k : Nat) {pos : Nat} (h : pos ∈ Config.checkPositions) :
    payload (checkBit w k pos) = 0 := by
  cases hparity : parityBit w k with
  | false => rw [checkBit_of_odd pos hparity, payload_oneHot_check pos h]
  | true =>
    rw [checkBit_of_even pos hparity]
    rfl

theorem payload_placePayload (p : BitVec 26) : payload (placePayload p) = p := by
  simp only [payload, placePayload, BitVec.extractLsb'_append_eq_of_le, BitVec.extractLsb'_append_eq_right,
    Nat.reduceLeDiff, Nat.reduceSub]
  rw [BitVec.extractLsb'_append_extractLsb'_eq_extractLsb' (show 11 = 4 + 7 by decide),
    BitVec.extractLsb'_append_extractLsb'_eq_extractLsb' (show 4 = 1 + 3 by decide),
    BitVec.extractLsb'_append_extractLsb'_eq_extractLsb' (show 1 = 0 + 1 by decide)]
  exact BitVec.extractLsb'_eq_self

/-- A check bit changes no payload bit. -/
theorem payload_xor_checkBit (v w : Word) (k : Nat) {pos : Nat} (h : pos ∈ Config.checkPositions) :
    payload (v ^^^ checkBit w k pos) = payload v := by
  rw [payload_xor, payload_checkBit w k h]
  exact BitVec.xor_zero

theorem payload_placeChecks (w : Word) : payload (placeChecks w) = payload w := by
  rw [placeChecks_eq, payload_xor_checkBit, payload_xor_checkBit, payload_xor_checkBit, payload_xor_checkBit,
    payload_xor_checkBit] <;> decide

theorem payload_referenceEncode (p : BitVec 26) : payload (referenceEncode p) = p := by
  rw [referenceEncode_eq, payload_xor_checkBit _ _ _ (by decide), payload_placeChecks, payload_placePayload]

/-- Words with the same payload have the same bits at the payload positions. -/
theorem getLsbD_eq_of_payload_eq {w w' : Word} (h : payload w = payload w') :
    ∀ p ∈ dataPositions, w.getLsbD p = w'.getLsbD p := by
  have hextract : extract w = extract w' := by
    rw [← bitsOfNat_natOfBits_self (extract w), ← bitsOfNat_natOfBits_self (extract w'), natOfBits_extract, natOfBits_extract, h,
      extract_length, extract_length]
  exact List.map_inj_left.1 (List.reverse_injective hextract)

/-- The ones of a word without payload are at check positions. -/
theorem onesOf_of_no_payload {w : Word} (h : payload w = 0) : onesOf w = Config.checkPositions.filter w.getLsbD := by
  have checks : Config.checkPositions = (List.range 32).filter Config.checkPositions.contains := by decide
  have payloadBits := getLsbD_eq_of_payload_eq (h.trans (show 0 = payload 0 from rfl))
  rw [checks, List.filter_filter, onesOf]
  refine List.filter_congr fun p hp => ?_
  by_cases hcheck : Config.checkPositions.contains p = true
  · rw [hcheck, Bool.and_true]
  · have hcheck := eq_false_of_ne_true hcheck
    have hdata : p ∈ dataPositions := by
      rw [dataPositions_eq_filter, List.mem_filter, hcheck]
      exact ⟨hp, rfl⟩
    rw [payloadBits p hdata, hcheck, Bool.and_false]
    exact BitVec.getLsbD_zero

/-- The numbers of different check positions cancel only if no locating check is among them. -/
theorem checkNumbers_cancel : ∀ ps ∈ Config.checkPositions.sublists,
    ps.foldl (fun e p => e ^^^ BitVec.ofNat 5 (p + 1)) 0#5 = 0 → ps = [] ∨ ps = [31] := by decide

/-- A codeword without payload has its ones at check positions. The syndrome leaves no locating check, and the overall parity
leaves no position 31. -/
theorem eq_zero_of_valid_of_no_payload {w : Word} (hw : validCodeword w = true) (h : payload w = 0) : w = 0 := by
  obtain ⟨he, heven⟩ := (validCodeword_iff w).1 hw
  have hsyndrome := syndrome_flipPositions 0 (onesOf w) fun _ => lt_of_mem_onesOf
  rw [flipPositions_onesOf, he] at hsyndrome
  have hchecks : onesOf w ∈ Config.checkPositions.sublists := by
    rw [onesOf_of_no_payload h, List.mem_sublists]
    exact List.filter_sublist
  obtain hnone | h31 := checkNumbers_cancel _ hchecks hsyndrome.symm
  · rw [← flipPositions_onesOf w, hnone]
    rfl
  · have hw : w = 1#32 <<< 31 := by
      rw [← flipPositions_onesOf w, h31]
      rfl
    rw [hw, overall_oneHot (by decide)] at heven
    cases heven

/-- The exclusive-or of two valid codewords is one, for parity is linear. -/
theorem validCodeword_xor {a b : Word} (ha : validCodeword a = true) (hb : validCodeword b = true) :
    validCodeword (a ^^^ b) = true := by
  rw [validCodeword_iff_parityBits] at ha hb ⊢
  intro k hk
  rw [parityBit_xor, ha k hk, hb k hk]
  rfl

/-- A valid codeword is known by its payload. -/
theorem codeword_unique {a b : Word} (ha : validCodeword a = true) (hb : validCodeword b = true)
    (h : payload a = payload b) : a = b := by
  refine BitVec.xor_eq_zero_iff.1 (eq_zero_of_valid_of_no_payload (validCodeword_xor ha hb) ?_)
  rw [payload_xor, h]
  exact BitVec.xor_self

/-- Settles O38: the encoder evens out every check and keeps the payload, and no other codeword has that payload. -/
theorem theReferenceEncoderGivesTheOneCodeword : Obligations.TheReferenceEncoderGivesTheOneCodeword := by
  intro p
  have valid : validCodeword (referenceEncode p) = true :=
    (validCodeword_iff_parityBits _).2 (parityBit_referenceEncode p)
  exact ⟨valid, payload_referenceEncode p, fun c hc hp =>
    codeword_unique hc valid (hp.trans (payload_referenceEncode p).symm)⟩

end Sys2Proof.Machine
end

section
/-! Triple errors (40_codec.md R113, 90_conflicts.md C3). -/
namespace Sys2Proof.Machine

/-- Three errors leave the exclusive-or of their numbers as the syndrome, and odd overall parity. -/
theorem tripleError {c : Word} (hc : validCodeword c = true) {p q r : Nat} (hp : p < 32) (hq : q < 32) (hr : r < 32) :
    syndrome (parity (c ^^^ 1#32 <<< p ^^^ 1#32 <<< q ^^^ 1#32 <<< r)) =
      BitVec.ofNat 5 (p + 1) ^^^ BitVec.ofNat 5 (q + 1) ^^^ BitVec.ofNat 5 (r + 1) ∧
    (parity (c ^^^ 1#32 <<< p ^^^ 1#32 <<< q ^^^ 1#32 <<< r)).p5 = false := by
  obtain ⟨he, hodd⟩ := singleError hc hp
  rw [syndrome_flip _ hr, syndrome_flip _ hq, overall_flip _ hr, overall_flip _ hq, he, hodd]
  exact ⟨rfl, rfl⟩

/-- A word that is accepted is corrected to a valid codeword (R112). -/
theorem validCodeword_corrected {w : Word} (h : verify (corrected w) = true) : validCodeword (corrected w) = true := by
  obtain ⟨heven, he⟩ := (verify_iff _).1 h
  exact (validCodeword_iff _).2 ⟨he, heven⟩

/-- One flip undoes at most one of three. -/
theorem four_flips_ne {c : Word} {p q r t : Nat} (hp : p < 32) (hqp : q < p) (hrq : r < q) :
    c ^^^ 1#32 <<< p ^^^ 1#32 <<< q ^^^ 1#32 <<< r ^^^ 1#32 <<< t ≠ c := by
  intro h
  have bit (i : Nat) := congrArg (fun v => v.getLsbD i) h
  have hpt : p = t := by
    by_contra hne
    simpa [hne, oneHot_getLsbD _ hp, hqp.ne', (hrq.trans hqp).ne'] using bit p
  have hqt : q = t := by
    by_contra hne
    simpa [hne, oneHot_getLsbD _ (hqp.trans hp), hqp.ne, hrq.ne'] using bit q
  omega

/-- Settles O37: with a syndrome left, the flip gives a codeword, which is not the one sent, and codewords differ in their
payloads. -/
theorem tripleErrorsMiscorrectUnlessTheyCancel : Obligations.TripleErrorsMiscorrectUnlessTheyCancel := by
  intro c hc p hp q hqp r hrq w e
  obtain ⟨he, hodd⟩ := tripleError hc hp (hqp.trans hp) (hrq.trans (hqp.trans hp))
  refine ⟨fun hzero => (decodeWord_eq_none_iff w).2 fun h => Bool.eq_false_iff.1 hodd (h.1 (he.trans hzero)),
    fun hne => ?_⟩
  have hne : syndrome (parity w) ≠ 0 := he ▸ hne
  have agree := iff_of_false hne (Bool.eq_false_iff.1 hodd)
  refine ⟨_, decodeWord_of_agree agree, fun hsame => ?_⟩
  have same : payload (corrected w) = payload c :=
    BitVec.eq_of_toNat_eq (by rw [← natOfBits_extract, hsame, natOfBits_extract])
  have hback := codeword_unique (validCodeword_corrected ((verify_corrected_iff w).2 agree)) hc same
  rw [corrected_of_syndrome_ne hne] at hback
  exact four_flips_ne hp hqp hrq hback

end Sys2Proof.Machine
end

section
/-! `append_word` on integers (41_reassembler.md R121): a group of a bit sequence is a field of its integer form. -/
namespace Sys2Proof.Machine

theorem natOfBits_split (t : List Bool) (k : Nat) :
    natOfBits t = natOfBits (t.take k) * 2 ^ (t.length - k) + natOfBits (t.drop k) := by
  conv_lhs => rw [← List.take_append_drop k t, natOfBits_append, List.length_drop]

/-- The first bits are the integer form shifted right past the others. -/
theorem natOfBits_take (t : List Bool) (k : Nat) : natOfBits (t.take k) = natOfBits t >>> (t.length - k) := by
  have hlt := natOfBits_lt (t.drop k)
  rw [List.length_drop] at hlt
  rw [Nat.shiftRight_eq_div_pow, natOfBits_split t k, Nat.mul_comm, Nat.mul_add_div (Nat.two_pow_pos _),
    Nat.div_eq_of_lt hlt, Nat.add_zero]

/-- The last bits are the integer form without the others. -/
theorem natOfBits_drop (t : List Bool) (k : Nat) : natOfBits (t.drop k) = natOfBits t % 2 ^ (t.length - k) := by
  have hlt := natOfBits_lt (t.drop k)
  rw [List.length_drop] at hlt
  rw [natOfBits_split t k, Nat.mul_add_mod', Nat.mod_eq_of_lt hlt]

/-- Group `j` of eight bits as a byte. -/
theorem byteOfBits_group (t : List Bool) {j : Nat} (h : 8 * (j + 1) ≤ t.length) :
    byteOfBits ((t.drop (8 * j)).take 8) = BitVec.ofNat 8 (natOfBits t >>> (t.length - 8 * (j + 1))) := by
  refine BitVec.eq_of_toNat_eq ?_
  have hgroup : (t.drop (8 * j)).take 8 = (t.take (8 * (j + 1))).drop (8 * j) := by
    rw [List.drop_take, Nat.mul_succ, Nat.add_sub_cancel_left]
  have hlen : (t.take (8 * (j + 1))).length - 8 * j = 8 := by
    rw [List.length_take, Nat.min_eq_left h]
    omega
  rw [hgroup, byteOfBits, natOfBits_drop, hlen, natOfBits_take]
  simp

/-- The accumulator of the integer form holds the Leftover Bits followed by the payload. -/
theorem natOfBits_accumulator {c r p : Nat} (hr : r < 2 ^ c) (hp : p < 2 ^ 26) :
    natOfBits (bitsOfNat r c ++ bitsOfNat p 26) = r <<< 26 ||| p := by
  rw [natOfBits_append, bitsOfNat_length, natOfBits_bitsOfNat, natOfBits_bitsOfNat, Nat.mod_eq_of_lt hr, Nat.mod_eq_of_lt hp,
    ← Nat.shiftLeft_add_eq_or_of_lt hp, Nat.shiftLeft_eq]

/-- The bytes and the rest of a cut, from the integer form and the length of the sequence. -/
theorem cutBytes_eq_int (t : List Bool) :
    cutBytes t = ((List.range (t.length / 8)).map fun j => BitVec.ofNat 8 (natOfBits t >>> (t.length - 8 * (j + 1))),
      t.drop (8 * (t.length / 8))) := by
  rw [cutBytes]
  congr 1
  refine List.map_congr_left fun j hj => byteOfBits_group t ?_
  have := List.mem_range.1 hj
  omega

theorem natOfBits_cutBytes_rest (t : List Bool) : natOfBits (cutBytes t).2 = natOfBits t % 2 ^ (t.length % 8) := by
  rw [cutBytes, natOfBits_drop, ← Nat.mod_eq_sub]

/-- Settles O42: both forms cut the same sequence, one by its bits and one by its integer form. -/
theorem appendWordIntegerFormAgrees : Obligations.AppendWordIntegerFormAgrees := by
  intro c r p _ hr hp
  have hlen : (bitsOfNat r c ++ bitsOfNat p 26).length = c + 26 := by simp
  rw [appendWord, natOfBits_cutBytes_rest, cutBytes_rest_length, cutBytes_eq_int, natOfBits_accumulator hr hp, hlen]
  rfl

end Sys2Proof.Machine
end

section
/-! Blocks as streams (41_reassembler.md R122, R125, R126). -/
namespace Sys2Proof.Machine

/-- Settles O43: each word's cut loses no bit, and what it leaves goes in front of the next payload. -/
theorem bytesOfABlockAreTheWholeStreamCutOnce : Obligations.BytesOfABlockAreTheWholeStreamCutOnce := by
  intro ws lo lo' out h
  refine ⟨?_, fun hlo => ?_⟩
  · induction ws generalizing lo out with
    | nil =>
      cases h
      simp
    | cons w ws ih =>
      cases hw : decodeWord w with
      | none =>
        rw [processWords_cons_none ws lo hw] at h
        cases h
      | some d =>
        rw [processWords_cons_some ws lo hw] at h
        obtain ⟨out', hrest, rfl⟩ := prepend_eq_decoded.1 h
        obtain ⟨-, rfl⟩ := decodeWord_eq_some.1 hw
        rw [List.flatMap_append, List.append_assoc, ih _ _ hrest, ← List.append_assoc, appendWord, cutBytes_bits,
          List.flatMap_cons, List.append_assoc]
  · obtain ⟨hsum, hlo'⟩ := processWords_decoded_lengths hlo h
    omega

theorem prepend_nil (r : BlockResult) : r.prepend [] = r := by cases r <;> rfl

theorem prepend_prepend (a b : List Byte) (r : BlockResult) : (r.prepend b).prepend a = r.prepend (a ++ b) := by
  cases r <;> simp [BlockResult.prepend]

/-- Settles O44: the words of the first block come first in the loop, with the same Leftover Bits in turn. -/
theorem divisionIntoBlocksDoesNotMatter : Obligations.DivisionIntoBlocksDoesNotMatter := by
  intro ws vs lo
  induction ws generalizing lo with
  | nil =>
    rw [List.nil_append, processWords_nil]
    exact (prepend_nil _).symm
  | cons w ws ih =>
    rw [List.cons_append]
    cases hw : decodeWord w with
    | none => rw [processWords_cons_none _ lo hw, processWords_cons_none _ lo hw]
    | some d =>
      rw [processWords_cons_some _ lo hw, processWords_cons_some _ lo hw, ih]
      cases processWords ws (appendWord lo d).2 with
      | decoded out lo' => exact prepend_prepend _ out _
      | uncorrectable => rfl
      | notDefined => rfl

/-- Settles O46: 128 words of 26 bits are 416 bytes, and at most 7 bits come in. -/
theorem outputBounds : Obligations.OutputBounds := by
  refine ⟨fun _ => rfl, fun blk lo lo' out hlo h => ?_⟩
  obtain ⟨hsum, hlo', h512⟩ := processBlock_decoded_lengths hlo h
  refine ⟨by omega, fun hfull => ?_⟩
  rw [hfull] at hsum
  omega

end Sys2Proof.Machine
end

section
/-! Loading a block byte by byte and processing it (42_commands.md R144, R145, R151). -/
namespace Sys2Proof.Machine

/-- Since `s₀` the bytes `blk` have been loaded, with no fault and the carry not touched. -/
def State.HasLoaded (s s₀ : State) (blk : List Byte) : Prop :=
  s.Inv ∧ s.loaded = blk ∧ s.lo = s₀.lo ∧ s.fcode = s₀.fcode

/-- The state shows the answer of `process_block` on the carry `lo`, as `PBLK` leaves it (R145). -/
def State.Shows (t : State) (lo : List Bool) (r : BlockResult) : Prop :=
  (r = .uncorrectable ∧ t.lo = lo ∧ t.olen = 0 ∧ t.unc = true) ∨
    ∃ out lo', r = .decoded out lo' ∧ t.lo = lo' ∧ t.olen.toNat = out.length ∧
      t.obuf.readBytes 0 out.length = out ∧ t.unc = false

/-- `rdata` of a `PBLK` that does not fault (R71): the number of Decoded Bytes, or the mark of an Uncorrectable block. -/
def BlockResult.data : BlockResult → BitVec 32
  | .decoded out _ => BitVec.ofNat 32 out.length
  | .uncorrectable => uncorrectableData
  | .notDefined => uncorrectableData

theorem Memory.readBytes_succ (m : Memory) (n : Nat) : m.readBytes 0 (n + 1) = m.readBytes 0 n ++ [m.read n] := by
  simp [Memory.readBytes, List.range_succ]

/-- The bytes written from index 0 are read back together. -/
theorem Memory.readBytes_writeBytes {m : Memory} (out : List Byte) (hm : m.wf = true) :
    (m.writeBytes 0 out).readBytes 0 out.length = out := by
  refine List.ext_getElem (Memory.readBytes_length _ _ _) fun i _ hi => ?_
  rw [Memory.readBytes_getElem, Memory.read_writeBytes_inside 0 out hm hi]

/-- A byte written at the end of what is loaded is loaded last. -/
theorem Memory.readBytes_write_end {m : Memory} (n : Nat) (byte : Byte) (hm : m.wf = true) :
    (m.write n byte).readBytes 0 (n + 1) = m.readBytes 0 n ++ [byte] := by
  rw [Memory.readBytes_succ, Memory.read_write_same n byte hm]
  congr 1
  exact Memory.readBytes_congr fun i _ hi => Memory.read_write_ne m byte (by omega)

/-- With `ILEN` at 0 nothing is loaded. -/
theorem loaded_of_ilen_zero {s : State} (h : s.ilen = 0) : s.loaded = [] := by
  rw [State.loaded, h]
  rfl

namespace State.HasLoaded

variable {s₀ s : State} {blk : List Byte}

theorem inv : s.HasLoaded s₀ blk → s.Inv := fun ⟨h, _⟩ => h

theorem loaded : s.HasLoaded s₀ blk → s.loaded = blk := fun ⟨_, h, _⟩ => h

theorem lo : s.HasLoaded s₀ blk → s.lo = s₀.lo := fun ⟨_, _, h, _⟩ => h

theorem fcode : s.HasLoaded s₀ blk → s.fcode = s₀.fcode := fun ⟨_, _, _, h⟩ => h

theorem ilen (h : s.HasLoaded s₀ blk) : s.ilen.toNat = blk.length := by
  rw [← h.loaded, Memory.readBytes_length]

theorem withInputs (h : s.HasLoaded s₀ blk) (rest : List Input) : State.HasLoaded { s with inputs := rest } s₀ blk :=
  ⟨h.inv, h.loaded, h.lo, h.fcode⟩

/-- `BPUSH` loads one byte more. -/
theorem exec_bpush (h : s.HasLoaded s₀ blk) (byte : Byte) (hroom : blk.length < 512) :
    ∃ t, exec (.bpush byte) s = .next t ∧ t.HasLoaded s₀ (blk ++ [byte]) ∧ t.rsps = s.rsps ++ [okRsp 0] := by
  have hroom : s.ilen.toNat < 512 := h.ilen ▸ hroom
  have hexec := execBpush_of_room byte hroom
  refine ⟨_, hexec, ⟨exec_keeps_inv (i := .bpush byte) h.inv hexec, ?_, h.lo, h.fcode⟩, rfl⟩
  show (s.ibuf.write s.ilen.toNat byte).readBytes 0 (s.ilen + 1).toNat = blk ++ [byte]
  rw [BitVec.toNat_add_of_lt (by omega : s.ilen.toNat + 1 < 2 ^ 10), ← h.loaded]
  exact Memory.readBytes_write_end _ byte (inv_ibuf_wf h.inv)

/-- `PBLK` on whole words shows and answers what `process_block` gives for the loaded bytes. -/
theorem exec_pblk (h : s.HasLoaded s₀ blk) (h4 : blk.length % 4 = 0) :
    ∃ t, exec .pblk s = .next t ∧ t.Inv ∧ t.ilen = 0 ∧ t.fcode = s₀.fcode ∧
      t.Shows s₀.lo (processBlock blk s₀.lo) ∧ t.rsps = s.rsps ++ [okRsp (processBlock blk s₀.lo).data] := by
  have h4 : s.ilen.toNat % 4 = 0 := h.ilen ▸ h4
  rw [← h.loaded, ← h.lo]
  obtain hbad | ⟨out, lo', hgood⟩ := loaded_uncorrectable_or_decoded h4 (inv_ilen h.inv)
  · have hexec := execPblk_of_uncorrectable h4 hbad
    rw [hbad]
    exact ⟨_, hexec, exec_keeps_inv (i := .pblk) h.inv hexec, rfl, h.fcode, .inl ⟨rfl, rfl, rfl, rfl⟩, rfl⟩
  · have hexec := execPblk_of_decoded h4 hgood
    obtain ⟨hout, hlo', -⟩ := loaded_decoded_lengths hgood
    rw [hgood]
    exact ⟨_, hexec, exec_keeps_inv (i := .pblk) h.inv hexec, rfl, h.fcode, .inr ⟨out, lo', rfl, lo_setLo s hlo',
      commitBlock_olen_toNat s lo' hout, Memory.readBytes_writeBytes out (inv_obuf_wf h.inv), rfl⟩, rfl⟩

end State.HasLoaded

/-- `BCLR` unloads what was loaded. -/
theorem exec_bclr_unloads {s : State} (hinv : s.Inv) :
    ∃ t, exec .bclr s = .next t ∧ t.HasLoaded s [] ∧ t.rsps = s.rsps ++ [okRsp 0] :=
  ⟨_, rfl, ⟨exec_keeps_inv (i := .bclr) hinv rfl, loaded_of_ilen_zero rfl, rfl, rfl⟩, rfl⟩

end Sys2Proof.Machine
end

section
/-! Runs of issued commands (42_commands.md R151, 30_encoding.md R77). -/
namespace Sys2Proof.Machine

/-- With a command issued next, a run goes on from what the command leaves, with the port advanced. -/
theorem run_command {s t : State} {i : Instr} {rest : List Input} (hin : s.inputs = .command (encode i) :: rest)
    (h : exec i { s with inputs := rest } = .next t) (k : Nat) : core.run (k + 1) s = core.run k t := by
  have hstep : core.step s = .next t := (step_of_command hin).trans ((perform_of_ok _ (decode_encode i)).trans h)
  simp only [Host.Core.run, hstep]

/-- The `BPUSH`es of some bytes load them after what is loaded. -/
theorem run_bpushes {s₀ s : State} {blk : List Byte} (bs : List Byte) {rest : List Input} (h : s.HasLoaded s₀ blk)
    (hin : s.inputs = commandInputs (bs.map .bpush) ++ rest) (hlen : blk.length + bs.length ≤ 512) :
    ∃ t, t.HasLoaded s₀ (blk ++ bs) ∧ t.inputs = rest ∧ ∀ k, core.run (bs.length + k) s = core.run k t := by
  induction bs generalizing s blk with
  | nil => exact ⟨s, by rwa [List.append_nil], hin, fun k => by rw [List.length_nil, Nat.zero_add]⟩
  | cons b bs ih =>
    rw [List.length_cons] at hlen
    obtain ⟨u, hexec, hu, -⟩ := (h.withInputs (commandInputs (bs.map .bpush) ++ rest)).exec_bpush b (by omega)
    obtain ⟨t, ht, hrest, hrun⟩ := ih hu (exec_inputs hexec) (by rw [List.length_append, List.length_singleton]; omega)
    refine ⟨t, by rwa [List.append_cons], hrest, fun k => ?_⟩
    rw [List.length_cons, Nat.add_right_comm, run_command hin hexec, hrun]

/-- The `BPUSH`es of a block and `PBLK`, with nothing loaded before, show what `process_block` gives for it. -/
theorem run_block {s₀ s : State} {blk : List Byte} {rest : List Input} (h : s.HasLoaded s₀ [])
    (hin : s.inputs = commandInputs (blk.map Instr.bpush ++ [Instr.pblk]) ++ rest) (hlen : blk.length ≤ 512)
    (h4 : blk.length % 4 = 0) :
    ∃ t : State, core.run (blk.length + 1) s = .next t ∧ t.inputs = rest ∧ t.ilen = 0 ∧ t.fcode = s₀.fcode ∧
      t.Shows s₀.lo (processBlock blk s₀.lo) := by
  rw [commandInputs, List.map_append, List.append_assoc] at hin
  obtain ⟨u, hu, hinu, hrun⟩ := run_bpushes blk h hin (by simpa using hlen)
  obtain ⟨t, hexec, -, hilen, hfcode, hshows, -⟩ := (hu.withInputs rest).exec_pblk h4
  refine ⟨t, ?_, exec_inputs hexec, hilen, hfcode, hshows⟩
  rw [hrun 1, run_command hinu hexec 0]
  rfl

/-- Settles O47: with `ILEN` at 0 nothing is loaded, so the bytes pushed are the block. -/
theorem pushingABlockAndProcessingItIsProcessBlock : Obligations.PushingABlockAndProcessingItIsProcessBlock := by
  intro s blk rest hinv hilen hlen h4 hin
  exact run_block ⟨hinv, loaded_of_ilen_zero hilen, rfl, rfl⟩ hin hlen h4

/-- The four bytes of a Coded Word, most significant first (R77). -/
def wordBytes (w : Word) : List Byte :=
  [w.extractLsb' 24 8, w.extractLsb' 16 8, w.extractLsb' 8 8, w.extractLsb' 0 8]

/-- The bytes of a word, joined again, are the word. -/
theorem wordOfBytes_wordBytes (w : Word) :
    wordOfBytes (w.extractLsb' 24 8) (w.extractLsb' 16 8) (w.extractLsb' 8 8) (w.extractLsb' 0 8) = w := by
  rw [wordOfBytes, BitVec.extractLsb'_append_extractLsb'_eq_extractLsb' (show 24 = 16 + 8 by decide),
    BitVec.extractLsb'_append_extractLsb'_eq_extractLsb' (show 16 = 8 + 8 by decide),
    BitVec.extractLsb'_append_extractLsb'_eq_extractLsb' (show 8 = 0 + 8 by decide)]
  exact BitVec.extractLsb'_eq_self

theorem wordsOfBytes_wordBytes (ws : List Word) : wordsOfBytes (ws.flatMap wordBytes) = ws := by
  induction ws with
  | nil => rfl
  | cons w ws ih =>
    show wordOfBytes _ _ _ _ :: wordsOfBytes (ws.flatMap wordBytes) = w :: ws
    rw [wordOfBytes_wordBytes, ih]

theorem wordBytes_length (ws : List Word) : (ws.flatMap wordBytes).length = 4 * ws.length := by
  induction ws with
  | nil => rfl
  | cons w ws ih =>
    rw [List.flatMap_cons, List.length_append, ih, List.length_cons, Nat.mul_succ, Nat.add_comm]
    rfl

/-- The expansion of `BLOCK` is `BCLR`, the `BPUSH`es of the words' bytes, and `PBLK` (R77). -/
theorem blockProgram_eq (ws : List Word) :
    blockProgram ws = .bclr :: ((ws.flatMap wordBytes).map Instr.bpush ++ [Instr.pblk]) := by
  rw [blockProgram, List.map_flatMap]
  rfl

/-- `process_block` on the bytes of at most 128 words is the loop over the words. -/
theorem processBlock_wordBytes (ws : List Word) (lo : List Bool) (h : ws.length ≤ 128) :
    processBlock (ws.flatMap wordBytes) lo = processWords ws lo := by
  have hlen := wordBytes_length ws
  rw [processBlock_of_defined lo (by omega) (by rw [Config.maxBlock_eq]; omega), wordsOfBytes_wordBytes]

/-- Settles O48: `BCLR` unloads whatever was loaded, and the bytes pushed make up the words again. -/
theorem theBlockPseudoInstructionProcessesItsWords : Obligations.TheBlockPseudoInstructionProcessesItsWords := by
  intro s ws rest hinv hws hin
  have hlen := wordBytes_length ws
  rw [blockProgram_eq] at hin
  obtain ⟨u, hexec, hu, -⟩ := exec_bclr_unloads (s := { s with
    inputs := commandInputs ((ws.flatMap wordBytes).map Instr.bpush ++ [Instr.pblk]) ++ rest }) hinv
  obtain ⟨t, hrun, hrest, hilen, hfcode, hshows⟩ := run_block hu (exec_inputs hexec) (by omega) (by omega)
  refine ⟨t, ?_, hrest, hilen, hfcode, processBlock_wordBytes ws s.lo hws ▸ hshows⟩
  rw [← hlen, run_command hin hexec, hrun]

end Sys2Proof.Machine
end

section
/-! The host's commands (43_host_contract.md R176): what a command does in `exec`, the host sees in its response. -/
namespace Sys2Proof.Machine

theorem issueCommand_of_exec {i : Instr} {s t : State} {r : Rsp} (h : exec i s = .next t) (hrsps : t.rsps = s.rsps ++ [r]) :
    issueCommand i s = some (t, r) := by
  have hstep : step (s.issue (encode i)) = .next t := (step_issue s _).trans ((perform_of_ok s (decode_encode i)).trans h)
  simp [issueCommand, hstep, hrsps]

theorem issueThen_of_exec {i : Instr} {s t : State} {r : Rsp} (k : State → BitVec 32 → Delivery)
    (h : exec i s = .next t) (hrsps : t.rsps = s.rsps ++ [r]) :
    issueThen i s k = if rflt r then .faulted t else k t (rdata r) := by
  rw [issueThen, issueCommand_of_exec h hrsps]

/-- After a response without a fault the host goes on with its `rdata`. -/
theorem issueThen_of_okRsp {i : Instr} {s t : State} {v : BitVec 32} (k : State → BitVec 32 → Delivery)
    (h : exec i s = .next t) (hrsps : t.rsps = s.rsps ++ [okRsp v]) : issueThen i s k = k t v := by
  rw [issueThen_of_exec k h hrsps, rflt_okRsp, rdata_okRsp]
  rfl

/-- A fault ends the delivery. -/
theorem issueThen_of_fault {i : Instr} {s : State} {f : InterfaceFault} (k : State → BitVec 32 → Delivery)
    (h : exec i s = .next (s.afterFault f)) : issueThen i s k = .faulted (s.afterFault f) := by
  rw [issueThen_of_exec k h (afterFault_rsps s f), rflt_faultRsp]
  rfl

theorem loadAndProcess_nil (s : State) : loadAndProcess [] s = processLoaded s := rfl

theorem loadAndProcess_cons (b : Byte) (bs : List Byte) (s : State) :
    loadAndProcess (b :: bs) s = issueThen (.bpush b) s (fun t _ => loadAndProcess bs t) := rfl

theorem Memory.readBytes_cons (m : Memory) (a n : Nat) :
    m.readBytes a (n + 1) = m.read a :: m.readBytes (a + 1) n := by
  simp [Memory.readBytes, List.range_succ_eq_map, Nat.add_assoc, Nat.add_comm 1]

/-- `RDOB` for each index up to `OLEN` reads the valid bytes of `OBUF` in order, and changes nothing but the responses. -/
theorem readOutput_accepted {i n : Nat} {s : State} (out : List Byte) (hinv : s.Inv) (holen : s.olen.toNat = i + n) :
    ∃ t, readOutput i n out s = .accepted t (out ++ s.obuf.readBytes i n) ∧ t.lo = s.lo := by
  induction n generalizing i s out with
  | zero => exact ⟨s, by rw [readOutput]; simp [Memory.readBytes], rfl⟩
  | succ n ih =>
    have hle := inv_olen hinv
    have hindex : (BitVec.ofNat 9 i).toNat = i := by
      rw [BitVec.toNat_ofNat, Nat.mod_eq_of_lt (by omega)]
    have hexec : exec (.rdob (BitVec.ofNat 9 i)) s = respond (byteData (s.obuf.read i)) s := by
      have hread := execRdob_of_readable (idx := BitVec.ofNat 9 i) hle (by omega)
      rwa [hindex] at hread
    obtain ⟨t, ht, hlo⟩ := ih (i := i + 1) (s := s.answer (okRsp (byteData (s.obuf.read i)))) (out ++ [s.obuf.read i])
      hinv (holen.trans (by omega))
    have hbyte : (byteData (s.obuf.read i)).setWidth 8 = s.obuf.read i :=
      (BitVec.setWidth_setWidth_of_le _ (by decide)).trans (BitVec.setWidth_eq _)
    refine ⟨t, ?_, hlo⟩
    rw [readOutput, issueThen_of_okRsp _ hexec rfl, hbyte, ht, Memory.readBytes_cons, List.append_assoc]
    rfl

section

variable {s₀ s : State} {blk : List Byte}

/-- The host looks at bit 31 of `PBLK`'s answer, then at the number of bytes (R176). -/
theorem processLoaded_of_okRsp {t : State} {v : BitVec 32} (hexec : exec .pblk s = .next t)
    (hrsps : t.rsps = s.rsps ++ [okRsp v]) :
    processLoaded s = if v.getLsbD 31 then .rejected t else readOutput 0 (v.extractLsb' 0 9).toNat [] t :=
  issueThen_of_okRsp _ hexec hrsps

/-- A number of Decoded Bytes has bit 31 clear and fits the low 9 bits. -/
theorem decodedCount_data {n : Nat} (h : n ≤ 416) :
    (BitVec.ofNat 32 n).getLsbD 31 = false ∧ ((BitVec.ofNat 32 n).extractLsb' 0 9).toNat = n := by
  have hn : (BitVec.ofNat 32 n).toNat = n := by
    rw [BitVec.toNat_ofNat, Nat.mod_eq_of_lt (by omega)]
  constructor
  · rw [BitVec.getLsbD, hn]
    exact Nat.testBit_lt_two_pow (by omega)
  · rw [BitVec.extractLsb'_toNat, hn, Nat.shiftRight_zero, Nat.mod_eq_of_lt (by omega)]

/-- The block loaded is Uncorrectable: the host sees bit 31 of `PBLK`'s answer. -/
theorem processLoaded_rejected (h : s.HasLoaded s₀ blk) (h4 : blk.length % 4 = 0)
    (hbad : processBlock blk s₀.lo = .uncorrectable) : ∃ t, processLoaded s = .rejected t ∧ t.lo = s₀.lo := by
  obtain ⟨t, hexec, -, -, -, hshows, hrsps⟩ := h.exec_pblk h4
  rw [hbad] at hshows hrsps
  obtain ⟨-, hlo, -⟩ | ⟨_, _, hno, -⟩ := hshows
  · exact ⟨t, processLoaded_of_okRsp hexec hrsps, hlo⟩
  · cases hno

/-- The block loaded decodes: the host sees the number of bytes, and reads that many. -/
theorem processLoaded_accepted (h : s.HasLoaded s₀ blk) (h4 : blk.length % 4 = 0) {out : List Byte} {lo' : List Bool}
    (hgood : processBlock blk s₀.lo = .decoded out lo') : ∃ t, processLoaded s = .accepted t out ∧ t.lo = lo' := by
  obtain ⟨u, hexec, hinv, -, -, hshows, hrsps⟩ := h.exec_pblk h4
  rw [hgood] at hshows hrsps
  obtain ⟨hno, -⟩ | ⟨_, _, hsame, hlo, holen, hbytes, -⟩ := hshows
  · cases hno
  · cases hsame
    obtain ⟨hbit, hcount⟩ := decodedCount_data (holen ▸ inv_olen hinv)
    obtain ⟨t, hread, htlo⟩ := readOutput_accepted (i := 0) (n := out.length) [] hinv (by omega)
    refine ⟨t, ?_, htlo.trans hlo⟩
    rw [processLoaded_of_okRsp hexec hrsps, BlockResult.data, hbit, hcount, hread, hbytes]
    rfl

theorem processLoaded_faulted (h : s.HasLoaded s₀ blk) (h4 : blk.length % 4 ≠ 0) : ∃ t, processLoaded s = .faulted t :=
  ⟨_, issueThen_of_fault _ (execPblk_of_badLength (h.ilen ▸ h4))⟩

/-- The host pushes a payload that fits, and processes it. -/
theorem loadAndProcess_of_fits (h : s.HasLoaded s₀ blk) (bs : List Byte) (hfits : blk.length + bs.length ≤ 512) :
    ∃ t, t.HasLoaded s₀ (blk ++ bs) ∧ loadAndProcess bs s = processLoaded t := by
  induction bs generalizing s blk with
  | nil => exact ⟨s, by rwa [List.append_nil], loadAndProcess_nil s⟩
  | cons b bs ih =>
    rw [List.length_cons] at hfits
    obtain ⟨u, hexec, hu, hrsps⟩ := h.exec_bpush b (by omega)
    obtain ⟨t, ht, hload⟩ := ih hu (by rw [List.length_append, List.length_singleton]; omega)
    refine ⟨t, by rwa [List.append_cons], ?_⟩
    rw [loadAndProcess_cons, issueThen_of_okRsp _ hexec hrsps, hload]

/-- A payload over 512 bytes faults at its byte 513. -/
theorem loadAndProcess_of_overflow (h : s.HasLoaded s₀ blk) (bs : List Byte) (hover : 512 < blk.length + bs.length) :
    ∃ t, loadAndProcess bs s = .faulted t := by
  have hilen : s.ilen.toNat ≤ 512 := inv_ilen h.inv
  rw [h.ilen] at hilen
  induction bs generalizing s blk with
  | nil =>
    rw [List.length_nil] at hover
    omega
  | cons b bs ih =>
    rw [List.length_cons] at hover
    rw [loadAndProcess_cons]
    obtain hroom | hfull := hilen.lt_or_eq
    · obtain ⟨u, hexec, hu, hrsps⟩ := h.exec_bpush b hroom
      rw [issueThen_of_okRsp _ hexec hrsps]
      exact ih hu (by rw [List.length_append, List.length_singleton]; omega)
        (by rw [List.length_append, List.length_singleton]; omega)
    · exact ⟨_, issueThen_of_fault _ (execBpush_of_full b (h.ilen.trans hfull))⟩

end

/-- `BCLR` first: a delivery is a load from nothing. -/
theorem deliver_eq (coded : List Byte) {s : State} (hinv : s.Inv) :
    ∃ t, t.HasLoaded s [] ∧ deliver coded s = loadAndProcess coded t := by
  obtain ⟨t, hexec, ht, hrsps⟩ := exec_bclr_unloads hinv
  exact ⟨t, ht, issueThen_of_okRsp _ hexec hrsps⟩

/-- A payload of whole words that fits is loaded as it is, and processed. -/
theorem deliver_of_fits {coded : List Byte} {s : State} (hinv : s.Inv) (hfits : coded.length ≤ 512) :
    ∃ t, t.HasLoaded s coded ∧ deliver coded s = processLoaded t := by
  obtain ⟨u, hu, hdeliver⟩ := deliver_eq coded hinv
  obtain ⟨t, ht, hload⟩ := loadAndProcess_of_fits hu coded (by simpa using hfits)
  exact ⟨t, ht, hdeliver.trans hload⟩

/-- A payload that is no block of whole words of at most 512 bytes ends in a fault. -/
theorem deliver_of_malformed {coded : List Byte} {s : State} (hinv : s.Inv)
    (hbad : coded.length % 4 ≠ 0 ∨ 512 < coded.length) : ∃ t, deliver coded s = .faulted t := by
  by_cases hfits : coded.length ≤ 512
  · obtain ⟨t, ht, hdeliver⟩ := deliver_of_fits hinv hfits
    obtain ⟨u, hfault⟩ := processLoaded_faulted ht (hbad.resolve_right (by omega))
    exact ⟨u, hdeliver.trans hfault⟩
  · obtain ⟨t, ht, hdeliver⟩ := deliver_eq coded hinv
    obtain ⟨u, hfault⟩ := loadAndProcess_of_overflow ht coded (by simpa using hfits)
    exact ⟨u, hdeliver.trans hfault⟩

end Sys2Proof.Machine
end

section
/-! Packets (43_host_contract.md R160 to R170). -/
namespace Sys2Proof.Machine

theorem wireBytes_wire16 (b0 b1 : Byte) : wireBytes (wire16 b0 b1) = [b0, b1] := by
  rw [wireBytes, wire16, BitVec.extractLsb'_append_eq_left, BitVec.extractLsb'_append_eq_right]

theorem nackPacket_wire16 (n0 n1 : Byte) : nackPacket (wire16 n0 n1) = [0, 6, n0, n1] := by
  rw [nackPacket, wireBytes_wire16]
  rfl

theorem ackPacket_wire16 (n0 n1 : Byte) : ackPacket (wire16 n0 n1) = [0, 4, n0, n1] := by
  rw [ackPacket, wireBytes_wire16]
  rfl

theorem classify_data (n0 n1 : Byte) (coded : List Byte) :
    classify ([0, 3, n0, n1] ++ coded) = .data (wire16 n0 n1) coded := rfl

/-- Settles O49: a delivery is rejected, accepted or faulted as `process_block` and the length say, and the packet answered
accordingly. -/
theorem theHostLoopHandlesADataPacket : Obligations.TheHostLoopHandlesADataPacket := by
  intro h n0 n1 coded hinv hrunning
  refine ⟨fun h4 h512 => ?_, fun hbad => ?_⟩
  · obtain ⟨u, hu, hdeliver⟩ := deliver_of_fits hinv h512
    constructor
    · intro hunc
      obtain ⟨t, ht, hlo⟩ := processLoaded_rejected hu h4 hunc
      refine ⟨t, ?_, hlo⟩
      simp only [onPacket, hrunning, classify_data, hdeliver, ht, nackPacket_wire16]
    · intro out lo' hgood
      obtain ⟨t, ht, hlo⟩ := processLoaded_accepted hu h4 hgood
      refine ⟨t, ?_, hlo⟩
      simp only [onPacket, hrunning, classify_data, hdeliver, ht, ackPacket_wire16]
      rfl
  · obtain ⟨t, hdeliver⟩ := deliver_of_malformed hinv hbad
    simp only [onPacket, hrunning, classify_data, hdeliver]
    exact ⟨rfl, rfl⟩

/-- Settles O50: the transfer fails with what the packet holds, and a failed transfer takes no packet. -/
theorem aProtocolErrorIsFatal : Obligations.AProtocolErrorIsFatal := by
  intro h c0 c1 message hrunning
  have hfail : onPacket ([0, 5, c0, c1] ++ message) h = h.fail (.protocolError (wire16 c0 c1) message) := by
    obtain ⟨block, sink, sent, status⟩ := h
    cases hrunning
    rfl
  rw [hfail]
  exact ⟨rfl, rfl, fun _ => rfl⟩

end Sys2Proof.Machine
end

section
/-! Numbers as text (30_encoding.md R76): the digits written are read back, and none of them is a blank or starts a comment. -/
namespace Sys2Proof.Machine

/-- Text that is neither blank nor a comment in any part. -/
def Bare (cs : List Char) : Prop := cs ≠ [] ∧ ∀ c ∈ cs, isBlank c = false ∧ c ≠ ';'

theorem digitValue_hexDigit : ∀ d < 16, digitValue (hexDigit d) = some d := by decide

theorem hexDigit_bare : ∀ d < 16, isBlank (hexDigit d) = false ∧ hexDigit d ≠ ';' := by decide

theorem hexDigits_zero (v : Nat) : hexDigits v 0 = [] := rfl

theorem hexDigits_succ (v n : Nat) : hexDigits v (n + 1) = hexDigit (v / 16 ^ n % 16) :: hexDigits v n := rfl

/-- Reading `n` digits appends them to what was read before. -/
theorem readDigits_hexDigits (acc v n : Nat) : readDigits 16 acc (hexDigits v n) = some (acc * 16 ^ n + v % 16 ^ n) := by
  induction n generalizing acc with
  | zero => simp [hexDigits_zero, readDigits, Nat.mod_one]
  | succ n ih =>
    have hd : v / 16 ^ n % 16 < 16 := Nat.mod_lt _ (by decide)
    simp only [hexDigits_succ, readDigits, digitValue_hexDigit _ hd, hd, if_true, ih, Nat.mod_pow_succ, Option.some.injEq]
    ring

theorem readNumber_hexNumber {v n : Nat} (h : v < 16 ^ (n + 1)) : readNumber (hexNumber v (n + 1)) = some v := by
  have hread := readDigits_hexDigits 0 v (n + 1)
  rw [Nat.zero_mul, Nat.zero_add, Nat.mod_eq_of_lt h] at hread
  exact hread

/-- An operand written in enough digits is read back. -/
theorem readOperand_hexNumber {w n : Nat} (b : BitVec w) (h : 2 ^ w ≤ 16 ^ (n + 1)) :
    readOperand w (hexNumber b.toNat (n + 1)) = some b := by
  rw [readOperand, readNumber_hexNumber (b.isLt.trans_le h)]
  simp [b.isLt]

theorem hexDigits_bare (v n : Nat) : ∀ c ∈ hexDigits v n, isBlank c = false ∧ c ≠ ';' := by
  induction n with
  | zero => simp [hexDigits_zero]
  | succ n ih => exact List.forall_mem_cons.2 ⟨hexDigit_bare _ (Nat.mod_lt _ (by decide)), ih⟩

theorem hexNumber_bare (v n : Nat) : Bare (hexNumber v n) :=
  ⟨List.cons_ne_nil _ _, List.forall_mem_cons.2 ⟨by decide, List.forall_mem_cons.2 ⟨by decide, hexDigits_bare v n⟩⟩⟩

namespace Bare

variable {b : List Char}

theorem ne_nil : Bare b → b ≠ [] := fun ⟨h, _⟩ => h

theorem no_blank (h : Bare b) : ∀ c ∈ b, (!isBlank c) = true := fun c hc => by
  obtain ⟨-, hbare⟩ := h
  rw [(hbare c hc).1, Bool.not_false]

theorem no_semicolon : Bare b → ∀ c ∈ b, c ≠ ';' := fun ⟨_, hbare⟩ c hc => (hbare c hc).2

theorem reverse : Bare b → Bare b.reverse := fun ⟨hne, hbare⟩ =>
  ⟨by simpa using hne, fun c hc => hbare c (List.mem_reverse.1 hc)⟩

end Bare

end Sys2Proof.Machine
end

section
/-! Lines of text (30_encoding.md R76, log entry 11): a comment and the blank before it go, and a command's line falls into its
mnemonic and its operand. -/
namespace Sys2Proof.Machine

/-- Text that starts and ends with no blank. -/
def Tight (cs : List Char) : Prop := (∃ b, Bare b ∧ b <+: cs) ∧ ∃ b, Bare b ∧ b <:+ cs

theorem dropWhile_isBlank_of_prefix {b cs : List Char} (hb : Bare b) (h : b <+: cs) : cs.dropWhile isBlank = cs := by
  obtain ⟨t, rfl⟩ := h
  obtain ⟨c, b, rfl⟩ := List.exists_cons_of_ne_nil hb.ne_nil
  exact List.dropWhile_cons_of_neg (by simpa using hb.no_blank c)

theorem Bare.tight {b : List Char} (h : Bare b) : Tight b := ⟨⟨b, h, List.prefix_rfl⟩, ⟨b, h, List.suffix_rfl⟩⟩

/-- A mnemonic and an operand with a blank between them. -/
theorem tight_of_bare_ends {b b' : List Char} (h : Bare b) (h' : Bare b') : Tight (b ++ ' ' :: b') :=
  ⟨⟨b, h, List.prefix_append _ _⟩, ⟨b', h', ⟨b ++ [' '], by simp⟩⟩⟩

theorem trimBlanks_eq (cs : List Char) :
    trimBlanks cs = ((cs.dropWhile isBlank).reverse.dropWhile isBlank).reverse := rfl

section

variable {cs : List Char} (h : Tight cs)
include h

theorem dropWhile_reverse_of_tight : cs.reverse.dropWhile isBlank = cs.reverse := by
  obtain ⟨-, b, hb, hsuffix⟩ := h
  exact dropWhile_isBlank_of_prefix hb.reverse (List.reverse_prefix.2 hsuffix)

theorem trimBlanks_of_tight : trimBlanks cs = cs := by
  obtain ⟨⟨b, hb, hprefix⟩, -⟩ := id h
  rw [trimBlanks_eq, dropWhile_isBlank_of_prefix hb hprefix, dropWhile_reverse_of_tight h, List.reverse_reverse]

theorem trimBlanks_leading : trimBlanks (' ' :: cs) = cs := trimBlanks_of_tight h

theorem trimBlanks_trailing : trimBlanks (cs ++ [' ']) = cs := by
  obtain ⟨⟨b, hb, hprefix⟩, -⟩ := id h
  have hleading : (cs ++ [' ']).dropWhile isBlank = cs ++ [' '] :=
    dropWhile_isBlank_of_prefix hb (hprefix.trans (List.prefix_append _ _))
  rw [trimBlanks_eq, hleading, List.reverse_append]
  exact (congrArg List.reverse (dropWhile_reverse_of_tight h)).trans cs.reverse_reverse

theorem ne_nil_of_tight : cs ≠ [] := by
  obtain ⟨⟨b, hb, hprefix⟩, -⟩ := h
  rintro rfl
  exact hb.ne_nil (List.prefix_nil.1 hprefix)

/-- A line with a tight text and no comment is cut at the first blank, and so it is with a comment after it. -/
theorem assembleLine_of_tight (hno : ∀ c ∈ cs, c ≠ ';') (comment : List Char) {is : Option (List Instr)}
    (hread : readCommand (cs.takeWhile (fun c => !isBlank c)) (trimBlanks (cs.dropWhile (fun c => !isBlank c))) = is) :
    assembleLine cs = is ∧ assembleLine (cs ++ ' ' :: ';' :: comment) = is := by
  have keep : ∀ c ∈ cs, (c != ';') = true := fun c hc => bne_iff_ne.2 (hno c hc)
  have hplain : trimBlanks (stripComment cs) = cs := by
    rw [stripComment, List.takeWhile_eq_self_iff.2 keep, trimBlanks_of_tight h]
  have hcomment : trimBlanks (stripComment (cs ++ ' ' :: ';' :: comment)) = cs := by
    rw [stripComment, List.takeWhile_append_of_pos keep]
    exact trimBlanks_trailing h
  constructor
  · simp only [assembleLine, hplain, ne_nil_of_tight h, if_false, hread]
  · simp only [assembleLine, hcomment, ne_nil_of_tight h, if_false, hread]

end

/-- The line of a command without operand is its mnemonic. -/
theorem assembleLine_mnemonic {m : List Char} (hm : Bare m) (comment : List Char) {is : Option (List Instr)}
    (hread : readCommand m [] = is) : assembleLine m = is ∧ assembleLine (m ++ ' ' :: ';' :: comment) = is := by
  refine assembleLine_of_tight hm.tight hm.no_semicolon comment ?_
  rw [List.takeWhile_eq_self_iff.2 hm.no_blank, List.dropWhile_eq_nil_iff.2 hm.no_blank]
  exact hread

/-- The line of a command with an operand is its mnemonic, a blank and the operand. -/
theorem assembleLine_operand {m o : List Char} (hm : Bare m) (ho : Bare o) (comment : List Char) {is : Option (List Instr)}
    (hread : readCommand m o = is) :
    assembleLine (m ++ ' ' :: o) = is ∧ assembleLine (m ++ ' ' :: o ++ ' ' :: ';' :: comment) = is := by
  have hno : ∀ c ∈ m ++ ' ' :: o, c ≠ ';' := by
    rw [List.forall_mem_append, List.forall_mem_cons]
    exact ⟨hm.no_semicolon, by decide, ho.no_semicolon⟩
  refine assembleLine_of_tight (tight_of_bare_ends hm ho) hno comment ?_
  rw [List.takeWhile_append_of_pos hm.no_blank, List.dropWhile_append_of_pos hm.no_blank,
    List.takeWhile_cons_of_neg (by decide), List.dropWhile_cons_of_neg (by decide), List.append_nil,
    trimBlanks_leading ho.tight]
  exact hread

/-- Settles O55: the mnemonic selects the command, and the operand's digits are read back. -/
theorem assemblerTextReadsBack : Obligations.AssemblerTextReadsBack := by
  intro i comment
  cases i with
  | bpush byte =>
    refine assembleLine_operand (m := ['B', 'P', 'U', 'S', 'H']) (by simp [Bare, isBlank]) (hexNumber_bare _ 2) comment ?_
    exact congrArg (Option.map fun b => [Instr.bpush b]) (readOperand_hexNumber byte (by decide))
  | decw word =>
    refine assembleLine_operand (m := ['D', 'E', 'C', 'W']) (by simp [Bare, isBlank]) (hexNumber_bare _ 8) comment ?_
    exact congrArg (Option.map fun w => [Instr.decw w]) (readOperand_hexNumber word (by decide))
  | rdob idx =>
    refine assembleLine_operand (m := ['R', 'D', 'O', 'B']) (by simp [Bare, isBlank]) (hexNumber_bare _ 3) comment ?_
    exact congrArg (Option.map fun i => [Instr.rdob i]) (readOperand_hexNumber idx (by decide))
  | nop | trst | bclr | pblk | rdst | rdln => exact assembleLine_mnemonic (by simp [showInstr, Bare, isBlank]) comment rfl

end Sys2Proof.Machine
end
